-- ==== Sys2Proof/Word.lean ====
section
/-! DEFINITION. The 32-bit output word and the kinds of text the encoder handles (00_scope.md R9, R12). -/

namespace Sys2Proof

/-- An EncodedWord: 32 bits, bit 31 the most significant (00_scope.md R7, R9; 30_encoding.md R50). -/
abbrev Word := BitVec 32

/-- A line: a finite sequence of characters, Unicode scalar values (00_scope.md R12, 92 D3). -/
abbrev Line := List Char

/-- A token: a run of non-whitespace characters (00_scope.md R12). -/
abbrev Token := List Char

/-- A register name as the encoders receive it, any string (40_register_table.md R81, 46_dispatcher.md R168). -/
abbrev RegName := List Char

end Sys2Proof
end

