-- ==== Sys2Proof/Config.lean ====
section
/-! DEFINITION. What is fixed for one encoder: the types of its two tables, the parameters of the encode function, the closed
enumerations (failure kinds, mnemonics by family), and the one free value. The tables' contents are in
Machine/Tables.lean. -/

namespace Sys2Proof

/-- The parameter J_LAYOUT (45_j_format.md R141): the order of the jump format's immediate slices. -/
inductive JLayout where
  | doc
  | std
  deriving DecidableEq, Repr

/-- The seven failure kinds, and no others (60_exceptions.md R200). Each is a result of a call, never a stop of the
machine (R208, R216). -/
inductive Failure where
  /-- A token in a register position is none of `x0` to `x31` (R201). -/
  | unknownRegister
  /-- The first token is none of the fifteen encodable mnemonics (R202). -/
  | unsupportedInstruction
  /-- The line has the wrong number of operand tokens (R203). -/
  | operandArityMismatch
  /-- The immediate token is no base-10 signed integer (R204). -/
  | invalidImmediateSyntax
  /-- A family I immediate outside [-2048, 2047] (R205). -/
  | immediateOverflow
  /-- A B or J offset outside its interval (R206). -/
  | offsetOutOfRange
  /-- A B or J offset inside its interval and odd (R207). -/
  | offsetMisaligned
  deriving DecidableEq, Repr

/-- The result of a call: a word or a failure kind, never both, never neither (60_exceptions.md R208). -/
abbrev Result := Except Failure Word

/-- Family R (41_metadata_table.md R95). -/
inductive RMnemonic where
  | add | sub | and | or | xor
  deriving DecidableEq, Repr

/-- Family I (41_metadata_table.md R95). -/
inductive IMnemonic where
  | addi | andi | ori | xori | jalr
  deriving DecidableEq, Repr

/-- Family B (41_metadata_table.md R95). -/
inductive BMnemonic where
  | beq | bne | blt | bge
  deriving DecidableEq, Repr

/-- The four table mnemonics without a family (41_metadata_table.md R96). -/
inductive UMnemonic where
  | lw | sw | lb | sb
  deriving DecidableEq, Repr

/-- The nineteen table mnemonics, by format family; family J is `jal` alone (41_metadata_table.md R90, R95, R96). A type
per family makes a call of an encoder with another family's mnemonic unrepresentable (46_dispatcher.md R168, 92 D24). -/
inductive Mnemonic where
  | r (m : RMnemonic)
  | i (m : IMnemonic)
  | b (m : BMnemonic)
  | jal
  | unrouted (m : UMnemonic)
  deriving DecidableEq, Repr

/-- An InstructionSpec as `META` returns it; an absent field is distinct from every value (10_state.md R22, 92 D23). -/
structure InstructionSpec where
  opcode : BitVec 7
  funct3 : Option (BitVec 3)
  funct7 : Option (BitVec 7)
  deriving DecidableEq, Repr

/-- A row with funct3 and funct7 present: family R (41_metadata_table.md R92). -/
structure RSpec where
  opcode : BitVec 7
  funct3 : BitVec 3
  funct7 : BitVec 7
  deriving DecidableEq, Repr

/-- A row with funct3 present and funct7 absent: families I and B and the four unrouted mnemonics (R92). -/
structure FSpec where
  opcode : BitVec 7
  funct3 : BitVec 3
  deriving DecidableEq, Repr

/-- A row with neither: family J (R92). -/
structure JSpec where
  opcode : BitVec 7
  deriving DecidableEq, Repr

/-- The Instruction Metadata Table: nineteen rows, one for each table mnemonic (10_state.md R22, 41_metadata_table.md R90).
Key set, presence pattern and field widths (R97 a, b, c) hold by the types. -/
structure MetaTable where
  add : RSpec
  sub : RSpec
  addi : FSpec
  and : RSpec
  or : RSpec
  xor : RSpec
  andi : FSpec
  ori : FSpec
  xori : FSpec
  beq : FSpec
  bne : FSpec
  blt : FSpec
  bge : FSpec
  jal : JSpec
  jalr : FSpec
  lw : FSpec
  sw : FSpec
  lb : FSpec
  sb : FSpec
  deriving DecidableEq, Repr

/-- The Register Table: 32 entries of 5 bits (10_state.md R21). -/
abbrev RegisterTable := Vector (BitVec 5) 32

/-- The parameters of the encode function (10_state.md R20, 00_scope.md R8): `META`, the contents of the Instruction Metadata
Table, and J_LAYOUT. The Register Table is no parameter (R21): it is the constant `registerRom`. None of the three is a field of the
machine's state (R20, 92 D16). -/
structure Encoder where
  metadataTable : MetaTable
  jLayout       : JLayout
  deriving DecidableEq, Repr

/-- What the pins `word` carry while `ok` is 0, after the n-th result: any value (92 D2, 93 U6). FREE VALUE, log 12. -/
opaque Config.undrivenWord : Nat → Word

end Sys2Proof
end

