-- ==== Sys2Proof/Syntax.lean ====
section
/-! DEFINITION. The typed request (46_dispatcher.md R168), one constructor for each row of spec/opcode_table.json: the
source's ParsedInstruction, a mnemonic with its operands in the order they stand on the line (10_state.md R24). -/

namespace Sys2Proof

/-- A parsed instruction. Register operands are names (any string); immediates and offsets are unbounded integers
(00_scope.md R10, 92 D4). The four table mnemonics without a format have no operands (R162 to R165). -/
inductive Instr where
  | add (rd rs1 rs2 : RegName)
  | sub (rd rs1 rs2 : RegName)
  | and (rd rs1 rs2 : RegName)
  | or (rd rs1 rs2 : RegName)
  | xor (rd rs1 rs2 : RegName)
  | addi (rd rs1 : RegName) (imm : Int)
  | andi (rd rs1 : RegName) (imm : Int)
  | ori (rd rs1 : RegName) (imm : Int)
  | xori (rd rs1 : RegName) (imm : Int)
  | jalr (rd rs1 : RegName) (imm : Int)
  | beq (rs1 rs2 : RegName) (off : Int)
  | bne (rs1 rs2 : RegName) (off : Int)
  | blt (rs1 rs2 : RegName) (off : Int)
  | bge (rs1 rs2 : RegName) (off : Int)
  | jal (rd : RegName) (off : Int)
  | lw
  | sw
  | lb
  | sb
  deriving DecidableEq, Repr

end Sys2Proof
end

