-- ==== Sys2Proof/Machine/Tables.lean ====
section
/-! DEFINITION. The contents of the two tables and their lookups (40_register_table.md, 41_metadata_table.md); the
mnemonics' names, order and port codes (92 D19); a mnemonic with operands as a typed request. -/

namespace Sys2Proof

/-! ### Decimal numerals -/

/-- The character of a decimal digit. -/
def digitChar (d : Nat) : Char := Char.ofNat (48 + d)

/-- The decimal digits of `n`, most significant first, before `acc`; the first argument bounds the number of digits. -/
def decimalAux : Nat → Nat → List Char → List Char
  | 0, _, acc => acc
  | fuel + 1, n, acc =>
    if n < 10 then digitChar n :: acc else decimalAux fuel (n / 10) (digitChar (n % 10) :: acc)

/-- The decimal numeral of `n`, without leading zeros. -/
def decimal (n : Nat) : List Char := decimalAux (n + 1) n []

/-! ### Register Table -/

/-- The name of register `i`: `x` and the decimal numeral of the index (40_register_table.md R82, R84). -/
def regName (i : BitVec 5) : RegName := 'x' :: decimal i.toNat

/-- The key of the Register Table that `name` is, if it is one of the 32 strings of R82 (exact match, R83). -/
def regKey (name : RegName) : Option (Fin 32) :=
  (List.finRange 32).find? fun i => regName (BitVec.ofFin i) == name

/-- The Register Table, a constant: entry i holds i (10_state.md R20, R21, R30; 40_register_table.md R82). -/
def registerRom : RegisterTable := Vector.ofFn fun i => BitVec.ofFin i

/-- `RegIdx(name)` (40_register_table.md R81). -/
def regIdx (name : RegName) : Except Failure (BitVec 5) :=
  match regKey name with
  | some i => .ok (registerRom.get i)
  | none => .error .unknownRegister

/-! ### Mnemonics -/

/-- The nineteen mnemonics in the order of 41_metadata_table.md R90 and R93. -/
def Mnemonic.all : List Mnemonic :=
  [.r .add, .r .sub, .i .addi, .r .and, .r .or, .r .xor, .i .andi, .i .ori, .i .xori,
   .b .beq, .b .bne, .b .blt, .b .bge, .jal, .i .jalr,
   .unrouted .lw, .unrouted .sw, .unrouted .lb, .unrouted .sb]

/-- The fifteen encodable mnemonics (00_scope.md R2). -/
def Mnemonic.encodable : List Mnemonic := Mnemonic.all.take 15

/-- The mnemonic's spelling (41_metadata_table.md R90). -/
def Mnemonic.name : Mnemonic → Token
  | .r .add => "add".toList
  | .r .sub => "sub".toList
  | .r .and => "and".toList
  | .r .or => "or".toList
  | .r .xor => "xor".toList
  | .i .addi => "addi".toList
  | .i .andi => "andi".toList
  | .i .ori => "ori".toList
  | .i .xori => "xori".toList
  | .i .jalr => "jalr".toList
  | .b .beq => "beq".toList
  | .b .bne => "bne".toList
  | .b .blt => "blt".toList
  | .b .bge => "bge".toList
  | .jal => "jal".toList
  | .unrouted .lw => "lw".toList
  | .unrouted .sw => "sw".toList
  | .unrouted .lb => "lb".toList
  | .unrouted .sb => "sb".toList

/-- The table mnemonic a token spells, exactly and case-sensitively (41_metadata_table.md R91, 92 D9). -/
def Mnemonic.ofName (t : Token) : Option Mnemonic := Mnemonic.all.find? fun m => m.name == t

/-- The mnemonic with port code `c`: row number 0 to 18 of R93 (92 D19). -/
def Mnemonic.ofCode (c : BitVec 5) : Option Mnemonic := Mnemonic.all[c.toNat]?

/-- The port code of a mnemonic, its row number in R93 (92 D19). -/
def Mnemonic.code (m : Mnemonic) : BitVec 5 := BitVec.ofNat 5 (Mnemonic.all.idxOf m)

/-! ### Instruction Metadata Table -/

/-- The default contents of `META` (41_metadata_table.md R93). The rows `add`, `addi` and `jal` are the source's; the
other sixteen are PRESUMED by the spec (R94, log 5). -/
def metadataRom : MetaTable where
  add  := { opcode := 0b0110011, funct3 := 0b000, funct7 := 0b0000000 }
  sub  := { opcode := 0b0110011, funct3 := 0b000, funct7 := 0b0100000 }
  addi := { opcode := 0b0010011, funct3 := 0b000 }
  and  := { opcode := 0b0110011, funct3 := 0b111, funct7 := 0b0000000 }
  or   := { opcode := 0b0110011, funct3 := 0b110, funct7 := 0b0000000 }
  xor  := { opcode := 0b0110011, funct3 := 0b100, funct7 := 0b0000000 }
  andi := { opcode := 0b0010011, funct3 := 0b111 }
  ori  := { opcode := 0b0010011, funct3 := 0b110 }
  xori := { opcode := 0b0010011, funct3 := 0b100 }
  beq  := { opcode := 0b1100011, funct3 := 0b000 }
  bne  := { opcode := 0b1100011, funct3 := 0b001 }
  blt  := { opcode := 0b1100011, funct3 := 0b100 }
  bge  := { opcode := 0b1100011, funct3 := 0b101 }
  jal  := { opcode := 0b1101111 }
  jalr := { opcode := 0b1100111, funct3 := 0b000 }
  lw   := { opcode := 0b0000011, funct3 := 0b010 }
  sw   := { opcode := 0b0100011, funct3 := 0b010 }
  lb   := { opcode := 0b0000011, funct3 := 0b000 }
  sb   := { opcode := 0b0100011, funct3 := 0b000 }

/-- A family R row as an InstructionSpec. -/
def RSpec.view (s : RSpec) : InstructionSpec :=
  { opcode := s.opcode, funct3 := some s.funct3, funct7 := some s.funct7 }

/-- A row without funct7 as an InstructionSpec. -/
def FSpec.view (s : FSpec) : InstructionSpec :=
  { opcode := s.opcode, funct3 := some s.funct3, funct7 := none }

/-- A jump row as an InstructionSpec. -/
def JSpec.view (s : JSpec) : InstructionSpec :=
  { opcode := s.opcode, funct3 := none, funct7 := none }

/-- The row of a family R mnemonic. -/
def MetaTable.rRow (t : MetaTable) : RMnemonic → RSpec
  | .add => t.add
  | .sub => t.sub
  | .and => t.and
  | .or => t.or
  | .xor => t.xor

/-- The row of a family I mnemonic. -/
def MetaTable.iRow (t : MetaTable) : IMnemonic → FSpec
  | .addi => t.addi
  | .andi => t.andi
  | .ori => t.ori
  | .xori => t.xori
  | .jalr => t.jalr

/-- The row of a family B mnemonic. -/
def MetaTable.bRow (t : MetaTable) : BMnemonic → FSpec
  | .beq => t.beq
  | .bne => t.bne
  | .blt => t.blt
  | .bge => t.bge

/-- The row of a mnemonic without a family (41_metadata_table.md R96). -/
def MetaTable.uRow (t : MetaTable) : UMnemonic → FSpec
  | .lw => t.lw
  | .sw => t.sw
  | .lb => t.lb
  | .sb => t.sb

/-- The InstructionSpec of a table mnemonic (41_metadata_table.md R91, R92). -/
def MetaTable.lookup (t : MetaTable) : Mnemonic → InstructionSpec
  | .r m => (t.rRow m).view
  | .i m => (t.iRow m).view
  | .b m => (t.bRow m).view
  | .jal => t.jal.view
  | .unrouted m => (t.uRow m).view

/-- `META(m)` of any string (41_metadata_table.md R91). -/
def Encoder.metaOf (e : Encoder) (t : Token) : Except Failure InstructionSpec :=
  match Mnemonic.ofName t with
  | some m => .ok (e.metadataTable.lookup m)
  | none => .error .unsupportedInstruction

/-- The hardware's parameters, constant from power-on (00_scope.md R8; 10_state.md R30; 92 D16): `META` as R93 gives it,
J_LAYOUT = DOC, the normative layout (45_j_format.md R141). -/
def Encoder.default : Encoder where
  metadataTable := metadataRom
  jLayout := .doc

/-! ### Typed requests -/

/-- A family R request. -/
def RMnemonic.request (rd rs1 rs2 : RegName) : RMnemonic → Instr
  | .add => .add rd rs1 rs2
  | .sub => .sub rd rs1 rs2
  | .and => .and rd rs1 rs2
  | .or => .or rd rs1 rs2
  | .xor => .xor rd rs1 rs2

/-- A family I request. -/
def IMnemonic.request (rd rs1 : RegName) (imm : Int) : IMnemonic → Instr
  | .addi => .addi rd rs1 imm
  | .andi => .andi rd rs1 imm
  | .ori => .ori rd rs1 imm
  | .xori => .xori rd rs1 imm
  | .jalr => .jalr rd rs1 imm

/-- A family B request. -/
def BMnemonic.request (rs1 rs2 : RegName) (off : Int) : BMnemonic → Instr
  | .beq => .beq rs1 rs2 off
  | .bne => .bne rs1 rs2 off
  | .blt => .blt rs1 rs2 off
  | .bge => .bge rs1 rs2 off

/-- The request of a mnemonic without a format. -/
def UMnemonic.request : UMnemonic → Instr
  | .lw => .lw
  | .sw => .sw
  | .lb => .lb
  | .sb => .sb

/-- The mnemonic of a request. -/
def Instr.mnemonic : Instr → Mnemonic
  | .add _ _ _ => .r .add
  | .sub _ _ _ => .r .sub
  | .and _ _ _ => .r .and
  | .or _ _ _ => .r .or
  | .xor _ _ _ => .r .xor
  | .addi _ _ _ => .i .addi
  | .andi _ _ _ => .i .andi
  | .ori _ _ _ => .i .ori
  | .xori _ _ _ => .i .xori
  | .jalr _ _ _ => .i .jalr
  | .beq _ _ _ => .b .beq
  | .bne _ _ _ => .b .bne
  | .blt _ _ _ => .b .blt
  | .bge _ _ _ => .b .bge
  | .jal _ _ => .jal
  | .lw => .unrouted .lw
  | .sw => .unrouted .sw
  | .lb => .unrouted .lb
  | .sb => .unrouted .sb

end Sys2Proof
end

