-- ==== Sys2Proof/Machine/Operands.lean ====
section
/-! DEFINITION. The immediate slicer and sign-extender (30_encoding.md R56 to R63) and the operand forms of a line:
register tokens and immediate tokens (46_dispatcher.md R154, R156). Register operands go through `regIdx`. -/

namespace Sys2Proof

/-! ### Two's complement -/

/-- `tc_N(v)`: the N-bit word of unsigned value `v mod 2^N` (30_encoding.md R56). Used only for `v` in range. -/
def tc (n : Nat) (v : Int) : BitVec n := BitVec.ofInt n v

/-- `sext_N(w)` (30_encoding.md R57). -/
def sext {n : Nat} (w : BitVec n) : Int := w.toInt

/-- `zext_N(w)` (30_encoding.md R57). -/
def zext {n : Nat} (w : BitVec n) : Nat := w.toNat

/-- The interval of `tc_N`: -2^(N-1) ≤ v ≤ 2^(N-1)-1 (00_scope.md R10). -/
def inTcRange (n : Nat) (v : Int) : Bool := decide (-2 ^ (n - 1) ≤ v) && decide (v ≤ 2 ^ (n - 1) - 1)

/-- The range test on a finite immediate input (30_encoding.md R58): the bits x[W-1:N-1] are all equal. -/
def signCopies {w : Nat} (n : Nat) (x : BitVec w) : Bool :=
  (List.range (w - (n - 1))).all fun k => x.getLsbD (n - 1 + k) == x.getLsbD (w - 1)

/-! ### Range and evenness tests -/

/-- The I immediate (30_encoding.md R59). -/
def sliceI (v : Int) : Except Failure (BitVec 12) :=
  if v < -2048 ∨ v > 2047 then .error .immediateOverflow
  else .ok (tc 12 v)

/-- The B offset (30_encoding.md R60): range first, then evenness (R62). -/
def sliceB (v : Int) : Except Failure (BitVec 13) :=
  if v < -4096 ∨ v > 4095 then .error .offsetOutOfRange
  else if v % 2 = 1 then .error .offsetMisaligned
  else .ok (tc 13 v)

/-- The J offset (30_encoding.md R61): range first, then evenness (R62). -/
def sliceJ (v : Int) : Except Failure (BitVec 21) :=
  if v < -1048576 ∨ v > 1048575 then .error .offsetOutOfRange
  else if v % 2 = 1 then .error .offsetMisaligned
  else .ok (tc 21 v)

/-! ### Tokens -/

/-- The six ASCII white-space characters (46_dispatcher.md R152): tab, line feed, vertical tab, form feed, carriage
return (U+0009 to U+000D) and space (U+0020). -/
def isWhite (c : Char) : Bool := c.toNat == 32 || (9 ≤ c.toNat && c.toNat ≤ 13)

/-- The tokens of a line: its maximal runs of non-whitespace characters, left to right (46_dispatcher.md R151). -/
def tokens : Line → List Token
  | [] => []
  | c :: cs =>
    if isWhite c then tokens cs
    else
      match cs with
      | [] => [[c]]
      | d :: _ =>
        if isWhite d then [c] :: tokens cs
        else
          match tokens cs with
          | [] => [[c]]
          | t :: ts => (c :: t) :: ts

/-- A register token with every trailing comma removed (46_dispatcher.md R154). -/
def stripCommas (t : Token) : RegName := (t.reverse.dropWhile (· == ',')).reverse

/-- Read `ds` as ASCII decimal digits after a number `n` already read (46_dispatcher.md R156). -/
def parseDigits (n : Nat) : List Char → Option Nat
  | [] => some n
  | c :: cs => if 48 ≤ c.toNat ∧ c.toNat ≤ 57 then parseDigits (10 * n + (c.toNat - 48)) cs else none

/-- One or more ASCII decimal digits, and nothing else. -/
def parseNat : List Char → Option Nat
  | [] => none
  | c :: cs => parseDigits 0 (c :: cs)

/-- An immediate token (46_dispatcher.md R156): an optional `+` or `-`, then one or more digits, the whole token. -/
def parseImm (t : Token) : Except Failure Int :=
  let value : Option Int :=
    match t with
    | '-' :: ds => (parseNat ds).map fun n : Nat => -(n : Int)
    | '+' :: ds => (parseNat ds).map fun n : Nat => (n : Int)
    | ds => (parseNat ds).map fun n : Nat => (n : Int)
  match value with
  | some v => .ok v
  | none => .error .invalidImmediateSyntax

end Sys2Proof
end

