-- ==== Sys2Proof/WellFormed.lean ====
section
/-! DEFINITION. Which typed requests the encoder answers with a word: register names in the Register Table, immediates in
range, offsets in range and even, a format to carry them. -/

namespace Sys2Proof

/-- A name of the Register Table (40_register_table.md R82). -/
def isRegName (name : RegName) : Bool := (regKey name).isSome

/-- An I immediate in range (30_encoding.md R59). -/
def isImmI (v : Int) : Bool := decide (-2048 ≤ v) && decide (v ≤ 2047)

/-- A B offset in range and even (30_encoding.md R60). -/
def isOffB (v : Int) : Bool := decide (-4096 ≤ v) && decide (v ≤ 4095) && decide (v % 2 = 0)

/-- A J offset in range and even (30_encoding.md R61). -/
def isOffJ (v : Int) : Bool := decide (-1048576 ≤ v) && decide (v ≤ 1048575) && decide (v % 2 = 0)

/-- The check. The four mnemonics without a format are never well-formed: no word carries them (41_metadata_table.md R96). -/
def Instr.wellFormed : Instr → Bool
  | .add rd rs1 rs2 => isRegName rd && isRegName rs1 && isRegName rs2
  | .sub rd rs1 rs2 => isRegName rd && isRegName rs1 && isRegName rs2
  | .and rd rs1 rs2 => isRegName rd && isRegName rs1 && isRegName rs2
  | .or rd rs1 rs2 => isRegName rd && isRegName rs1 && isRegName rs2
  | .xor rd rs1 rs2 => isRegName rd && isRegName rs1 && isRegName rs2
  | .addi rd rs1 imm => isRegName rd && isRegName rs1 && isImmI imm
  | .andi rd rs1 imm => isRegName rd && isRegName rs1 && isImmI imm
  | .ori rd rs1 imm => isRegName rd && isRegName rs1 && isImmI imm
  | .xori rd rs1 imm => isRegName rd && isRegName rs1 && isImmI imm
  | .jalr rd rs1 imm => isRegName rd && isRegName rs1 && isImmI imm
  | .beq rs1 rs2 off => isRegName rs1 && isRegName rs2 && isOffB off
  | .bne rs1 rs2 off => isRegName rs1 && isRegName rs2 && isOffB off
  | .blt rs1 rs2 off => isRegName rs1 && isRegName rs2 && isOffB off
  | .bge rs1 rs2 off => isRegName rs1 && isRegName rs2 && isOffB off
  | .jal rd off => isRegName rd && isOffJ off
  | .lw => false
  | .sw => false
  | .lb => false
  | .sb => false

end Sys2Proof
end

