-- ==== Sys2Proof/Decode.lean ====
section
/-! DEFINITION. The decode direction (30_encoding.md R64 to R67), total on every 32-bit word and rejecting by name, and after
it an encoder written from the shift forms of R55. Neither is a unit of the hardware: they are the spec's aids for the
round-trip properties (92 D20, log 9). -/

namespace Sys2Proof

/-- Why a word is no instruction of the table. -/
inductive DecodeReject where
  /-- No row of the metadata table has the word's opcode. -/
  | opcodeNotInTable
  /-- Rows have the word's opcode, none its funct3 (and funct7 where the row has one). -/
  | functNotInTable
  deriving DecidableEq, Repr

/-! ### Field extraction -/

/-- w[6:0] (R64 to R67). -/
def opcodeOf (w : Word) : BitVec 7 := w.extractLsb 6 0

/-- w[11:7] (R64, R65, R67). -/
def rdOf (w : Word) : BitVec 5 := w.extractLsb 11 7

/-- w[14:12] (R64 to R66). -/
def funct3Of (w : Word) : BitVec 3 := w.extractLsb 14 12

/-- w[19:15] (R64 to R66). -/
def rs1Of (w : Word) : BitVec 5 := w.extractLsb 19 15

/-- w[24:20] (R64, R66). -/
def rs2Of (w : Word) : BitVec 5 := w.extractLsb 24 20

/-- w[31:25] (R64). -/
def funct7Of (w : Word) : BitVec 7 := w.extractLsb 31 25

/-- The I immediate (R65). -/
def immIOf (w : Word) : Int := sext (w.extractLsb 31 20)

/-- The B offset (R66). -/
def offBOf (w : Word) : Int :=
  sext (w.extractLsb 31 31 ++ w.extractLsb 7 7 ++ w.extractLsb 30 25 ++ w.extractLsb 11 8 ++ (0#1) : BitVec 13)

/-- The J offset, under each layout (R67). -/
def offJOf (l : JLayout) (w : Word) : Int :=
  match l with
  | .doc => sext (w.extractLsb 31 12 ++ (0#1) : BitVec 21)
  | .std =>
    sext (w.extractLsb 31 31 ++ w.extractLsb 19 12 ++ w.extractLsb 20 20 ++ w.extractLsb 30 21 ++ (0#1) : BitVec 21)

/-! ### The decoder -/

/-- The row's fields that are present stand in the word (the opcode map, R68). -/
def InstructionSpec.matchesWord (s : InstructionSpec) (w : Word) : Bool :=
  s.opcode == opcodeOf w
    && (match s.funct3 with
        | some f => f == funct3Of w
        | none => true)
    && (match s.funct7 with
        | some f => f == funct7Of w
        | none => true)

/-- The operands of a word of the mnemonic's format (R64 to R67). The four unrouted mnemonics have none: their pattern only
identifies the table row (R68, log 8). -/
def operandsOf (l : JLayout) (w : Word) : Mnemonic → Instr
  | .r m => m.request (regName (rdOf w)) (regName (rs1Of w)) (regName (rs2Of w))
  | .i m => m.request (regName (rdOf w)) (regName (rs1Of w)) (immIOf w)
  | .b m => m.request (regName (rs1Of w)) (regName (rs2Of w)) (offBOf w)
  | .jal => .jal (regName (rdOf w)) (offJOf l w)
  | .unrouted m => m.request

/-- The instruction a word stands for under an encoder's metadata table and jump layout. -/
def decode (e : Encoder) (w : Word) : Except DecodeReject Instr :=
  match Mnemonic.all.find? fun m => (e.metadataTable.lookup m).matchesWord w with
  | some m => .ok (operandsOf e.jLayout w m)
  | none =>
    if Mnemonic.all.any fun m => (e.metadataTable.lookup m).opcode == opcodeOf w then .error .functNotInTable
    else .error .opcodeNotInTable

/-- The instruction of the table word `w` of `nbits` bits under the default encoder. Bit 0 of the word is the number's
least significant bit; the word is taken whole, no byte order enters (20_memory.md R42, log 20). -/
def decodeTableWord (nbits w : Nat) : Option Instr :=
  match decode Encoder.default (BitVec.ofNat 32 (w % 2 ^ nbits)) with
  | .ok i => some i
  | .error _ => none

/-! ### The encoder, by shifts (30_encoding.md R55) -/

/-- A register name's index as a 32-bit number (R82). -/
def regBits (name : RegName) : Word :=
  match regKey name with
  | some i => BitVec.ofNat 32 i.val
  | none => 0

/-- `funct7<<25 | rs2<<20 | rs1<<15 | funct3<<12 | rd<<7 | opcode` (R55). -/
def shiftR (s : RSpec) (rd rs1 rs2 : RegName) : Word :=
  s.funct7.setWidth 32 <<< 25 ||| regBits rs2 <<< 20 ||| regBits rs1 <<< 15 ||| s.funct3.setWidth 32 <<< 12
    ||| regBits rd <<< 7 ||| s.opcode.setWidth 32

/-- `imm12<<20 | rs1<<15 | funct3<<12 | rd<<7 | opcode` (R55). -/
def shiftI (s : FSpec) (rd rs1 : RegName) (imm : Int) : Word :=
  (tc 12 imm).setWidth 32 <<< 20 ||| regBits rs1 <<< 15 ||| s.funct3.setWidth 32 <<< 12
    ||| regBits rd <<< 7 ||| s.opcode.setWidth 32

/-- The bits `i[hi:lo]` of an offset as a 32-bit number. -/
def sliceBits {n : Nat} (i : BitVec n) (hi lo : Nat) : Word := (i.extractLsb hi lo).setWidth 32

/-- `i[12]<<31 | i[10:5]<<25 | rs2<<20 | rs1<<15 | funct3<<12 | i[4:1]<<8 | i[11]<<7 | opcode` (R55). -/
def shiftB (s : FSpec) (rs1 rs2 : RegName) (off : Int) : Word :=
  let i := tc 13 off
  sliceBits i 12 12 <<< 31 ||| sliceBits i 10 5 <<< 25 ||| regBits rs2 <<< 20 ||| regBits rs1 <<< 15
    ||| s.funct3.setWidth 32 <<< 12 ||| sliceBits i 4 1 <<< 8 ||| sliceBits i 11 11 <<< 7 ||| s.opcode.setWidth 32

/-- `i[20:1]<<12 | rd<<7 | opcode` under DOC;
`i[20]<<31 | i[10:1]<<21 | i[11]<<20 | i[19:12]<<12 | rd<<7 | opcode` under STD (R55). -/
def shiftJ (l : JLayout) (s : JSpec) (rd : RegName) (off : Int) : Word :=
  let i := tc 21 off
  match l with
  | .doc => sliceBits i 20 1 <<< 12 ||| regBits rd <<< 7 ||| s.opcode.setWidth 32
  | .std =>
    sliceBits i 20 20 <<< 31 ||| sliceBits i 10 1 <<< 21 ||| sliceBits i 11 11 <<< 20 ||| sliceBits i 19 12 <<< 12
      ||| regBits rd <<< 7 ||| s.opcode.setWidth 32

/-- The word of a request, without the check. -/
def shiftWord (e : Encoder) : Instr → Word
  | .add rd rs1 rs2 => shiftR e.metadataTable.add rd rs1 rs2
  | .sub rd rs1 rs2 => shiftR e.metadataTable.sub rd rs1 rs2
  | .and rd rs1 rs2 => shiftR e.metadataTable.and rd rs1 rs2
  | .or rd rs1 rs2 => shiftR e.metadataTable.or rd rs1 rs2
  | .xor rd rs1 rs2 => shiftR e.metadataTable.xor rd rs1 rs2
  | .addi rd rs1 imm => shiftI e.metadataTable.addi rd rs1 imm
  | .andi rd rs1 imm => shiftI e.metadataTable.andi rd rs1 imm
  | .ori rd rs1 imm => shiftI e.metadataTable.ori rd rs1 imm
  | .xori rd rs1 imm => shiftI e.metadataTable.xori rd rs1 imm
  | .jalr rd rs1 imm => shiftI e.metadataTable.jalr rd rs1 imm
  | .beq rs1 rs2 off => shiftB e.metadataTable.beq rs1 rs2 off
  | .bne rs1 rs2 off => shiftB e.metadataTable.bne rs1 rs2 off
  | .blt rs1 rs2 off => shiftB e.metadataTable.blt rs1 rs2 off
  | .bge rs1 rs2 off => shiftB e.metadataTable.bge rs1 rs2 off
  | .jal rd off => shiftJ e.jLayout e.metadataTable.jal rd off
  | .lw => 0
  | .sw => 0
  | .lb => 0
  | .sb => 0

/-- The word of a well-formed request; none of any other (no wrapping, no default register: 60_exceptions.md R208). -/
def encode (e : Encoder) (i : Instr) : Option Word := if i.wellFormed then some (shiftWord e i) else none

end Sys2Proof
end

