-- ==== Sys2Proof/Machine/State.lean ====
section
/-! DEFINITION. What a step transforms. The encoder itself keeps nothing between calls: its two tables are constants (10_state.md
R20, R23; 92 D16), and it has no registers, program counter, flags, memory or modes (R26 to R29, R214). So State holds its caller's
side alone: the calls presented and the results handed back (46_dispatcher.md R150, R168). -/

namespace Sys2Proof.Machine

open Sys2Proof

/-- A typed request (46_dispatcher.md R168): an encodable mnemonic of its own family with that family's operands. A mnemonic of
another family, or of none, cannot be written (92 D24). -/
inductive Request where
  | r (m : RMnemonic) (rd rs1 rs2 : RegName)
  | i (m : IMnemonic) (rd rs1 : RegName) (imm : Int)
  | b (m : BMnemonic) (rs1 rs2 : RegName) (off : Int)
  | j (rd : RegName) (off : Int)
  deriving DecidableEq, Repr

/-- One presentation of one input to the encoder (00_scope.md R13). -/
inductive Call where
  /-- Level L: a line of text (46_dispatcher.md R150). -/
  | line (text : Line)
  /-- Level F: a typed request (R168). -/
  | request (q : Request)
  /-- Level F with the mnemonic as its 5-bit port code (92 D2, D19); an operand the family does not use is ignored. -/
  | port (code : BitVec 5) (r0 r1 r2 : RegName) (imm : Int)
  deriving DecidableEq, Repr

/-- Reasons the machine stops with a fault: none. Every input, however malformed, gives a result (60_exceptions.md R216);
the seven failure kinds are results (R208). Safe: nothing raises it. -/
inductive Fault where
  deriving DecidableEq, Repr

/-- Reasons the model refuses. -/
inductive Refusal where
  /-- Raised by an arm of `exec` whose instruction has no meaning yet: no arm of this model. Safe. -/
  | notModelled (mnemonic : String)
  deriving DecidableEq, Repr

/-- The outcome of one step of this machine. -/
abbrev Outcome (σ : Type) := Host.Outcome σ Fault Refusal

/-- What a step transforms: the caller's side of the interface. By 10_state.md R20 the tables are no field of it: they are the
constants `registerRom` and `Encoder.default`, which the meanings pass to the encode function (log 1). -/
structure State where
  /-- Calls presented and not yet answered, the next one first. The model's own field (log 2). -/
  calls : List Call
  /-- Results handed back, oldest first. The model's own field, not kept by the hardware (10_state.md R28; 60_exceptions.md
  R212 allows it; log 3). -/
  results : List Result
  deriving DecidableEq, Repr

/-- After reset: nothing presented, nothing handed back (log 2, log 3). The tables are constants and need no reset
(70_reset_and_hazards.md R230, R231). -/
def State.reset : State where
  calls := []
  results := []

end Sys2Proof.Machine
end

