-- ==== Sys2Proof/Machine/Render.lean ====
section
/-! DEFINITION. Renderings: the word as a string of 32 characters (20_memory.md R41), the canonical spelling of a request
(46_dispatcher.md R159), and the call that presents a table word's instruction. -/

namespace Sys2Proof

/-- The string form of a word: character number i is bit 31-i (00_scope.md R9, 20_memory.md R41). -/
def wordString (w : Word) : List Char :=
  (List.range 32).map fun i => if w.getLsbD (31 - i) then '1' else '0'

/-- A base-10 signed integer. -/
def decimalInt : Int → List Char
  | .ofNat n => decimal n
  | .negSucc n => '-' :: decimal (n + 1)

/-- Operands in the canonical spelling: each but the last followed by a comma and one space (R159). -/
def joinOperands : List Token → List Char
  | [] => []
  | [t] => t
  | t :: ts => t ++ ',' :: ' ' :: joinOperands ts

/-- The operand tokens of a request, in line order. -/
def Instr.operands : Instr → List Token
  | .add rd rs1 rs2 => [rd, rs1, rs2]
  | .sub rd rs1 rs2 => [rd, rs1, rs2]
  | .and rd rs1 rs2 => [rd, rs1, rs2]
  | .or rd rs1 rs2 => [rd, rs1, rs2]
  | .xor rd rs1 rs2 => [rd, rs1, rs2]
  | .addi rd rs1 imm => [rd, rs1, decimalInt imm]
  | .andi rd rs1 imm => [rd, rs1, decimalInt imm]
  | .ori rd rs1 imm => [rd, rs1, decimalInt imm]
  | .xori rd rs1 imm => [rd, rs1, decimalInt imm]
  | .jalr rd rs1 imm => [rd, rs1, decimalInt imm]
  | .beq rs1 rs2 off => [rs1, rs2, decimalInt off]
  | .bne rs1 rs2 off => [rs1, rs2, decimalInt off]
  | .blt rs1 rs2 off => [rs1, rs2, decimalInt off]
  | .bge rs1 rs2 off => [rs1, rs2, decimalInt off]
  | .jal rd off => [rd, decimalInt off]
  | .lw => []
  | .sw => []
  | .lb => []
  | .sb => []

/-- The canonical line of a request: mnemonic, one space, operands (R159). The four mnemonics without a grammar are their
bare name, which the dispatcher refuses as it refuses every line that begins with it (R162). -/
def canonicalLine (i : Instr) : Line :=
  match i.operands with
  | [] => i.mnemonic.name
  | ts => i.mnemonic.name ++ ' ' :: joinOperands ts

/-- The calls by which the caller presents the instruction of a table word: its canonical line; nothing where the decoder
refuses the word (log 7). -/
def callsOfWord (nbits w : Nat) : List Machine.Call :=
  match decodeTableWord nbits w with
  | some i => [.line (canonicalLine i)]
  | none => []

end Sys2Proof
end

