-- ==== Sys2Proof/Machine/Ops.lean ====
section
/-! DEFINITION. The shared operations: the four format compositors (42 to 45), the encode function over them, handing
back a result, and reporting a failure, which is this hardware's taking of an exception (60_exceptions.md R211). There is no
return from it (R212). -/

namespace Sys2Proof

/-! ### Composition: the layouts, most significant field first (30_encoding.md R51 to R55) -/

/-- R format (R51). -/
def layoutR (funct7 : BitVec 7) (rs2 rs1 : BitVec 5) (funct3 : BitVec 3) (rd : BitVec 5) (opcode : BitVec 7) : Word :=
  funct7 ++ rs2 ++ rs1 ++ funct3 ++ rd ++ opcode

/-- I format (R52). -/
def layoutI (imm : BitVec 12) (rs1 : BitVec 5) (funct3 : BitVec 3) (rd : BitVec 5) (opcode : BitVec 7) : Word :=
  imm ++ rs1 ++ funct3 ++ rd ++ opcode

/-- B format (R53). -/
def layoutB (i : BitVec 13) (rs2 rs1 : BitVec 5) (funct3 : BitVec 3) (opcode : BitVec 7) : Word :=
  i.extractLsb 12 12 ++ i.extractLsb 10 5 ++ rs2 ++ rs1 ++ funct3 ++ i.extractLsb 4 1 ++ i.extractLsb 11 11 ++ opcode

/-- J format under each value of J_LAYOUT (R54, 45_j_format.md R140, R141). -/
def layoutJ (l : JLayout) (i : BitVec 21) (rd : BitVec 5) (opcode : BitVec 7) : Word :=
  match l with
  | .doc => i.extractLsb 20 20 ++ i.extractLsb 19 12 ++ i.extractLsb 11 11 ++ i.extractLsb 10 1 ++ rd ++ opcode
  | .std => i.extractLsb 20 20 ++ i.extractLsb 10 1 ++ i.extractLsb 11 11 ++ i.extractLsb 19 12 ++ rd ++ opcode

/-! ### Format encoders -/

/-- `encR(m, a, b, c)` (42_r_format.md R110). -/
def Encoder.encR (e : Encoder) (m : RMnemonic) (a b c : RegName) : Result := do
  let s := e.metadataTable.rRow m
  let rd ← regIdx a
  let rs1 ← regIdx b
  let rs2 ← regIdx c
  return layoutR s.funct7 rs2 rs1 s.funct3 rd s.opcode

/-- `encI(m, a, b, v)` (43_i_format.md R120). -/
def Encoder.encI (e : Encoder) (m : IMnemonic) (a b : RegName) (v : Int) : Result := do
  let s := e.metadataTable.iRow m
  let rd ← regIdx a
  let rs1 ← regIdx b
  let imm ← sliceI v
  return layoutI imm rs1 s.funct3 rd s.opcode

/-- `encB(m, a, b, v)` (44_b_format.md R130). -/
def Encoder.encB (e : Encoder) (m : BMnemonic) (a b : RegName) (v : Int) : Result := do
  let s := e.metadataTable.bRow m
  let rs1 ← regIdx a
  let rs2 ← regIdx b
  let i ← sliceB v
  return layoutB i rs2 rs1 s.funct3 s.opcode

/-- `encJ(jal, a, v)` (45_j_format.md R140). -/
def Encoder.encJ (e : Encoder) (a : RegName) (v : Int) : Result := do
  let s := e.metadataTable.jal
  let rd ← regIdx a
  let i ← sliceJ v
  return layoutJ e.jLayout i rd s.opcode

/-! ### The encode function -/

/-- The result of a typed request: the encode function of 10_state.md R20, whose parameters are `e`. Every meaning calls it on
its own request with the hardware's parameters; a request without a format fails (46_dispatcher.md R162 to R165). -/
def Encoder.encodeRequest (e : Encoder) : Instr → Result
  | .add rd rs1 rs2 => e.encR .add rd rs1 rs2
  | .sub rd rs1 rs2 => e.encR .sub rd rs1 rs2
  | .and rd rs1 rs2 => e.encR .and rd rs1 rs2
  | .or rd rs1 rs2 => e.encR .or rd rs1 rs2
  | .xor rd rs1 rs2 => e.encR .xor rd rs1 rs2
  | .addi rd rs1 imm => e.encI .addi rd rs1 imm
  | .andi rd rs1 imm => e.encI .andi rd rs1 imm
  | .ori rd rs1 imm => e.encI .ori rd rs1 imm
  | .xori rd rs1 imm => e.encI .xori rd rs1 imm
  | .jalr rd rs1 imm => e.encI .jalr rd rs1 imm
  | .beq rs1 rs2 off => e.encB .beq rs1 rs2 off
  | .bne rs1 rs2 off => e.encB .bne rs1 rs2 off
  | .blt rs1 rs2 off => e.encB .blt rs1 rs2 off
  | .bge rs1 rs2 off => e.encB .bge rs1 rs2 off
  | .jal rd off => e.encJ rd off
  | .lw => .error .unsupportedInstruction
  | .sw => .error .unsupportedInstruction
  | .lb => .error .unsupportedInstruction
  | .sb => .error .unsupportedInstruction

namespace Machine

/-! ### Results -/

/-- Hand a result back to the caller: nothing else changes (10_state.md R24, R25; log 3). -/
def State.answer (r : Result) (s : State) : State := { s with results := s.results ++ [r] }

/-- Report a failure (60_exceptions.md R211): the kind is handed back in place of the word; nothing is saved, no table, mode
or other state changes, control goes nowhere. -/
def State.reportFailure (k : Failure) (s : State) : State := s.answer (.error k)

/-- Hand back what a format encoder gave, word or failure unchanged (46_dispatcher.md R157). -/
def State.propagate (r : Result) (s : State) : State :=
  match r with
  | .ok w => s.answer (.ok w)
  | .error k => s.reportFailure k

end Machine

end Sys2Proof
end

