-- ==== Sys2Proof/Machine/FamilyB.lean ====
section
/-! DEFINITION. The branch instructions (44_b_format.md). -/

namespace Sys2Proof.Machine

/-- `beq` (R131). -/
def execBeq (rs1 rs2 : RegName) (off : Int) (s : State) : Outcome State :=
  .next (s.propagate (Encoder.default.encodeRequest (.beq rs1 rs2 off)))

/-- `bne` (R132). -/
def execBne (rs1 rs2 : RegName) (off : Int) (s : State) : Outcome State :=
  .next (s.propagate (Encoder.default.encodeRequest (.bne rs1 rs2 off)))

/-- `blt` (R133). -/
def execBlt (rs1 rs2 : RegName) (off : Int) (s : State) : Outcome State :=
  .next (s.propagate (Encoder.default.encodeRequest (.blt rs1 rs2 off)))

/-- `bge` (R134). -/
def execBge (rs1 rs2 : RegName) (off : Int) (s : State) : Outcome State :=
  .next (s.propagate (Encoder.default.encodeRequest (.bge rs1 rs2 off)))

end Sys2Proof.Machine
end

