-- ==== Sys2Proof/Machine/FamilyI.lean ====
section
/-! DEFINITION. The register-immediate instructions (43_i_format.md). -/

namespace Sys2Proof.Machine

/-- `addi` (R121). -/
def execAddi (rd rs1 : RegName) (imm : Int) (s : State) : Outcome State :=
  .next (s.propagate (Encoder.default.encodeRequest (.addi rd rs1 imm)))

/-- `andi` (R122). -/
def execAndi (rd rs1 : RegName) (imm : Int) (s : State) : Outcome State :=
  .next (s.propagate (Encoder.default.encodeRequest (.andi rd rs1 imm)))

/-- `ori` (R123). -/
def execOri (rd rs1 : RegName) (imm : Int) (s : State) : Outcome State :=
  .next (s.propagate (Encoder.default.encodeRequest (.ori rd rs1 imm)))

/-- `xori` (R124). -/
def execXori (rd rs1 : RegName) (imm : Int) (s : State) : Outcome State :=
  .next (s.propagate (Encoder.default.encodeRequest (.xori rd rs1 imm)))

/-- `jalr` (R125). -/
def execJalr (rd rs1 : RegName) (imm : Int) (s : State) : Outcome State :=
  .next (s.propagate (Encoder.default.encodeRequest (.jalr rd rs1 imm)))

end Sys2Proof.Machine
end

