-- ==== Sys2Proof/Machine/FamilyJ.lean ====
section
/-! DEFINITION. The jump instruction (45_j_format.md). -/

namespace Sys2Proof.Machine

/-- `jal` (R142). -/
def execJal (rd : RegName) (off : Int) (s : State) : Outcome State :=
  .next (s.propagate (Encoder.default.encodeRequest (.jal rd off)))

end Sys2Proof.Machine
end

