-- ==== Sys2Proof/Machine/FamilyR.lean ====
section
/-! DEFINITION. The register-register instructions (42_r_format.md). -/

namespace Sys2Proof.Machine

/-- `add` (R111). -/
def execAdd (rd rs1 rs2 : RegName) (s : State) : Outcome State :=
  .next (s.propagate (Encoder.default.encodeRequest (.add rd rs1 rs2)))

/-- `sub` (R112). -/
def execSub (rd rs1 rs2 : RegName) (s : State) : Outcome State :=
  .next (s.propagate (Encoder.default.encodeRequest (.sub rd rs1 rs2)))

/-- `and` (R113). -/
def execAnd (rd rs1 rs2 : RegName) (s : State) : Outcome State :=
  .next (s.propagate (Encoder.default.encodeRequest (.and rd rs1 rs2)))

/-- `or` (R114). -/
def execOr (rd rs1 rs2 : RegName) (s : State) : Outcome State :=
  .next (s.propagate (Encoder.default.encodeRequest (.or rd rs1 rs2)))

/-- `xor` (R115). -/
def execXor (rd rs1 rs2 : RegName) (s : State) : Outcome State :=
  .next (s.propagate (Encoder.default.encodeRequest (.xor rd rs1 rs2)))

end Sys2Proof.Machine
end

