-- ==== Sys2Proof/Machine/Unrouted.lean ====
section
/-! DEFINITION. The four table mnemonics without an encoder (46_dispatcher.md, section 3): their effect is the failure
`UnsupportedInstruction`, a result and not a stop of the machine (60_exceptions.md R202, R216). -/

namespace Sys2Proof.Machine

/-- `lw` (R162). -/
def execLw (s : State) : Outcome State := .next (s.propagate (Encoder.default.encodeRequest .lw))

/-- `sw` (R163). -/
def execSw (s : State) : Outcome State := .next (s.propagate (Encoder.default.encodeRequest .sw))

/-- `lb` (R164). -/
def execLb (s : State) : Outcome State := .next (s.propagate (Encoder.default.encodeRequest .lb))

/-- `sb` (R165). -/
def execSb (s : State) : Outcome State := .next (s.propagate (Encoder.default.encodeRequest .sb))

end Sys2Proof.Machine
end

