-- ==== Sys2Proof/Machine/Front.lean ====
section
/-! DEFINITION. The dispatcher (46_dispatcher.md): a line read as a typed request, or the failure that stops it; the other two
forms of a call; and R158, the whole dispatcher as one function. -/

namespace Sys2Proof

/-- The request a line makes, or the failure its front end reports: steps 1 to 5 (R151 to R156) in the order of R158. A line
whose first token is `lw`, `sw`, `lb` or `sb` is that mnemonic's request whatever follows (R162 to R165, 92 D14): its
meaning is the refusal. -/
def parseLine (line : Line) : Except Failure Instr :=
  match tokens line with
  | [] => .error .unsupportedInstruction
  | name :: ops =>
    match Mnemonic.ofName name with
    | none => .error .unsupportedInstruction
    | some (.unrouted m) => .ok m.request
    | some (.r m) =>
      match ops with
      | [a, b, c] => .ok (m.request (stripCommas a) (stripCommas b) (stripCommas c))
      | _ => .error .operandArityMismatch
    | some (.i m) =>
      match ops with
      | [a, b, t] => (parseImm t).map fun v => m.request (stripCommas a) (stripCommas b) v
      | _ => .error .operandArityMismatch
    | some (.b m) =>
      match ops with
      | [a, b, t] => (parseImm t).map fun v => m.request (stripCommas a) (stripCommas b) v
      | _ => .error .operandArityMismatch
    | some .jal =>
      match ops with
      | [a, t] => (parseImm t).map fun v => .jal (stripCommas a) v
      | _ => .error .operandArityMismatch

/-- The request a port presents: the mnemonic of the code with the operands its family uses; codes 19 to 31 name nothing
(92 D19). Names are taken as they stand: only the dispatcher strips commas (R154). -/
def parsePort (code : BitVec 5) (r0 r1 r2 : RegName) (imm : Int) : Except Failure Instr :=
  match Mnemonic.ofCode code with
  | none => .error .unsupportedInstruction
  | some (.r m) => .ok (m.request r0 r1 r2)
  | some (.i m) => .ok (m.request r0 r1 imm)
  | some (.b m) => .ok (m.request r0 r1 imm)
  | some .jal => .ok (.jal r0 imm)
  | some (.unrouted m) => .ok m.request

/-- The instruction of a typed request. -/
def Machine.Request.instr : Machine.Request → Instr
  | .r m rd rs1 rs2 => m.request rd rs1 rs2
  | .i m rd rs1 imm => m.request rd rs1 imm
  | .b m rs1 rs2 off => m.request rs1 rs2 off
  | .j rd off => .jal rd off

/-- The request a call makes, or the failure that answers it. -/
def Machine.Call.parse : Machine.Call → Except Failure Instr
  | .line text => parseLine text
  | .request q => .ok q.instr
  | .port code r0 r1 r2 imm => parsePort code r0 r1 r2 imm

/-! ### The dispatcher as one function -/

/-- The format families (R153). -/
inductive Family where
  | r | i | b | j
  deriving DecidableEq, Repr

/-- The fixed partition of the fifteen encodable mnemonics (R153). -/
def familyOf (m : Token) : Option Family :=
  if m ∈ ["add".toList, "sub".toList, "and".toList, "or".toList, "xor".toList] then some .r
  else if m ∈ ["addi".toList, "andi".toList, "ori".toList, "xori".toList, "jalr".toList] then some .i
  else if m ∈ ["beq".toList, "bne".toList, "blt".toList, "bge".toList] then some .b
  else if m = "jal".toList then some .j
  else none

/-- How many operand tokens a family needs (R155). -/
def Family.need : Family → Nat
  | .r => 3
  | .i => 3
  | .b => 3
  | .j => 2

/-- A family R mnemonic by its spelling. -/
def RMnemonic.ofName (t : Token) : RMnemonic :=
  if t = "add".toList then .add else if t = "sub".toList then .sub else if t = "and".toList then .and
  else if t = "or".toList then .or else .xor

/-- A family I mnemonic by its spelling. -/
def IMnemonic.ofName (t : Token) : IMnemonic :=
  if t = "addi".toList then .addi else if t = "andi".toList then .andi else if t = "ori".toList then .ori
  else if t = "xori".toList then .xori else .jalr

/-- A family B mnemonic by its spelling. -/
def BMnemonic.ofName (t : Token) : BMnemonic :=
  if t = "beq".toList then .beq else if t = "bne".toList then .bne else if t = "blt".toList then .blt else .bge

/-- `encode_line(line)` in the normative order of checks (46_dispatcher.md R158). The machine's step does not call it: that
the two agree is a statement. -/
def encodeLine (e : Encoder) (line : Line) : Result :=
  match tokens line with
  | [] => .error .unsupportedInstruction
  | m :: ops =>
    match familyOf m with
    | none => .error .unsupportedInstruction
    | some fam =>
      if ops.length ≠ fam.need then .error .operandArityMismatch
      else
        let r (k : Nat) : RegName := stripCommas (ops.getD k [])
        match fam with
        | .r => e.encR (RMnemonic.ofName m) (r 0) (r 1) (r 2)
        | .i => do
          let v ← parseImm (ops.getD 2 [])
          e.encI (IMnemonic.ofName m) (r 0) (r 1) v
        | .b => do
          let v ← parseImm (ops.getD 2 [])
          e.encB (BMnemonic.ofName m) (r 0) (r 1) v
        | .j => do
          let v ← parseImm (ops.getD 1 [])
          e.encJ (r 0) v

end Sys2Proof
end

