-- ==== Sys2Proof/Machine/RunCall.lean ====
section
/-! DEFINITION. One call: the front end reads it, and either its request's meaning or the failure's report answers it
(46_dispatcher.md R157, 60_exceptions.md R211). -/

namespace Sys2Proof.Machine

/-- Answer one call. -/
def runCall (c : Call) (s : State) : Outcome State :=
  match c.parse with
  | .ok i => exec i s
  | .error k => .next (s.reportFailure k)

/-- Take the next call off the caller's list, if one is presented. -/
def State.takeCall (s : State) : Option (Call × State) :=
  match s.calls with
  | [] => none
  | c :: rest => some (c, { s with calls := rest })

end Sys2Proof.Machine

namespace Sys2Proof

/-- The result of a call (10_state.md R20, R25): of its input and of the tables, `META` and J_LAYOUT as parameters, and of nothing
else. Answering the call hands back exactly this result under the hardware's parameters (`Machine.runCall_eq_answer`). -/
def Encoder.encodeCall (e : Encoder) (c : Machine.Call) : Result :=
  match c.parse with
  | .ok i => e.encodeRequest i
  | .error k => .error k

end Sys2Proof
end

