-- ==== Sys2Proof/Machine/Step.lean ====
section
/-! DEFINITION. One step answers one call (00_scope.md R13). -/

namespace Sys2Proof.Machine

/-- One step: the next call is answered; with no call presented nothing happens (log 4). -/
def step (s : State) : Host.Outcome State Fault Refusal :=
  match s.takeCall with
  | some (c, s') => runCall c s'
  | none => .next s

/-- `s` with the instruction of a table word presented as the caller's next call (log 7). -/
def State.withFetchWord (s : State) (nbits w : Nat) : State := { s with calls := callsOfWord nbits w ++ s.calls }

end Sys2Proof.Machine
end

