-- ==== Sys2Proof/Machine/Flags.lean ====
section
/-! DEFINITION. The encoder has no flags (10_state.md R28). Its only status is the kind of the current call's result, here as the
pins of 92 D2 with the codes of 60_exceptions.md R210. -/

namespace Sys2Proof

/-- The code of a failure kind on the port, 1 to 7 (60_exceptions.md R210). -/
def Failure.code : Failure → BitVec 3
  | .unknownRegister => 1
  | .unsupportedInstruction => 2
  | .operandArityMismatch => 3
  | .invalidImmediateSyntax => 4
  | .immediateOverflow => 5
  | .offsetOutOfRange => 6
  | .offsetMisaligned => 7

/-- The output pins (92 D2). -/
structure Pins where
  ok   : Bool
  word : Word
  fail : BitVec 3
  deriving DecidableEq, Repr

/-- A result on the pins; `undriven` is what `word` carries when `ok` is 0, any value (93 U6). -/
def pinsOf (undriven : Word) : Result → Pins
  | .ok w => { ok := true, word := w, fail := 0 }
  | .error k => { ok := false, word := undriven, fail := k.code }

/-- The pins after the last result handed back; none before the first call. On a failure the word is the free value
`Config.undrivenWord` (log 12). -/
def Machine.State.pins (s : Machine.State) : Option Pins :=
  s.results.getLast?.map (pinsOf (Config.undrivenWord s.results.length))

end Sys2Proof
end

