-- ==== Sys2Proof/Safety.lean ====
section
/-! DEFINITION. What statements assume of an encoder and what counts as a safe state and run. -/

namespace Sys2Proof

/-- The cells the source itself states have the stated values (41_metadata_table.md R94, R97 d). -/
abbrev MetaTable.SourceCells (t : MetaTable) : Prop :=
  t.add = { opcode := 0b0110011, funct3 := 0b000, funct7 := 0b0000000 }
    ∧ t.addi = { opcode := 0b0010011, funct3 := 0b000 }
    ∧ t.jal = { opcode := 0b1101111 }

/-- Two encodable mnemonics are of one family. -/
def Mnemonic.sameFamily : Mnemonic → Mnemonic → Bool
  | .r _, .r _ => true
  | .i _, .i _ => true
  | .b _, .b _ => true
  | .jal, .jal => true
  | _, _ => false

/-- Among the fifteen encodable mnemonics, two of different families differ in the opcode, and two of one family differ in a
field present for it (41_metadata_table.md R97 e). -/
abbrev MetaTable.Separated (t : MetaTable) : Prop :=
  ∀ m ∈ Mnemonic.encodable, ∀ n ∈ Mnemonic.encodable, m ≠ n →
    if m.sameFamily n then t.lookup m ≠ t.lookup n else (t.lookup m).opcode ≠ (t.lookup n).opcode

/-- What the spec requires of the parameters: a `META` argument that meets R97 (its clauses a, b, c hold by the types). Either
jump layout. -/
abbrev Encoder.Conforms (e : Encoder) : Prop :=
  e.metadataTable.SourceCells ∧ e.metadataTable.Separated

/-- A word the encoder can return (30_encoding.md R69): the word of some well-formed request. -/
def Encoder.InImage (e : Encoder) (w : Word) : Prop := ∃ i : Instr, encode e i = some w

namespace Machine

/-- The state invariant: every word handed back is in the image. -/
def State.Inv (s : State) : Prop := ∀ w : Word, Except.ok w ∈ s.results → Encoder.default.InImage w

/-- A run that never stops. -/
def State.Safe (s : State) : Prop := ∀ n : Nat, ∃ t : State, Sys2Proof.core.run n s = .next t

end Machine

end Sys2Proof
end

