-- ==== Sys2Proof/Certificates/Slice0/Obligations.lean ====
section
/-! DEFINITION. The statements for the provers. A next state is written out whole, so each statement about an instruction says
its frame too: the caller's remaining calls are unchanged and exactly one result is added. The tables are constants (10_state.md
R20): the machine runs with `Encoder.default`, the hardware's parameters, and what holds under every `META` and either J_LAYOUT is said
of the encode function, `e.encodeRequest` or `e.encodeCall`, over every `e`. -/

open Sys2Proof Sys2Proof.Machine

/-! ### The two tables -/

/-- From reset on the two tables are what R30 and R231 give and J_LAYOUT is its default (R8); they are constants (R20, R230). The two
lists of the host interface are empty after reset, which is the model's choice (log 2, log 3). -/
def Obligations.ResetHoldsTheTwoTables : Prop :=
  (∀ i : Fin 32, registerRom.get i = BitVec.ofNat 5 i.val)
    ∧ Encoder.default.metadataTable = metadataRom
    ∧ Encoder.default.jLayout = .doc
    ∧ State.reset.calls = [] ∧ State.reset.results = []

/-- R82: the complete table, each of the 32 names with its pattern. -/
def Obligations.RegisterTableIsComplete : Prop :=
  ∀ row ∈ ([("x0", 0b00000), ("x1", 0b00001), ("x2", 0b00010), ("x3", 0b00011), ("x4", 0b00100), ("x5", 0b00101),
            ("x6", 0b00110), ("x7", 0b00111), ("x8", 0b01000), ("x9", 0b01001), ("x10", 0b01010), ("x11", 0b01011),
            ("x12", 0b01100), ("x13", 0b01101), ("x14", 0b01110), ("x15", 0b01111), ("x16", 0b10000), ("x17", 0b10001),
            ("x18", 0b10010), ("x19", 0b10011), ("x20", 0b10100), ("x21", 0b10101), ("x22", 0b10110), ("x23", 0b10111),
            ("x24", 0b11000), ("x25", 0b11001), ("x26", 0b11010), ("x27", 0b11011), ("x28", 0b11100), ("x29", 0b11101),
            ("x30", 0b11110), ("x31", 0b11111)] : List (String × BitVec 5)),
    regIdx row.1.toList = .ok row.2 ∧ regName row.2 = row.1.toList

/-- R81: `RegIdx` answers the pattern i on the name of index i and on nothing else, and fails with `UnknownRegister` when and
only when the name is none of the 32. -/
def Obligations.RegisterLookupIsExact : Prop :=
  (∀ (name : RegName) (i : BitVec 5), regIdx name = .ok i ↔ name = regName i)
    ∧ ∀ name : RegName, regIdx name = .error .unknownRegister ↔ ∀ i : BitVec 5, name ≠ regName i

/-- R84: the lookup is injective on the names it answers and onto the 5-bit words. -/
def Obligations.RegisterLookupIsBijective : Prop :=
  (∀ (a b : RegName) (i : BitVec 5), regIdx a = .ok i → regIdx b = .ok i → a = b)
    ∧ ∀ i : BitVec 5, ∃ name : RegName, regIdx name = .ok i

/-- R93, R95: the nineteen rows of the default table, with their numbers, names, families and fields. -/
def Obligations.MetadataRowsAndFamilies : Prop :=
  ∀ row ∈ ([(0, "add", some .r, 0b0110011, some 0b000, some 0b0000000),
            (1, "sub", some .r, 0b0110011, some 0b000, some 0b0100000),
            (2, "addi", some .i, 0b0010011, some 0b000, none),
            (3, "and", some .r, 0b0110011, some 0b111, some 0b0000000),
            (4, "or", some .r, 0b0110011, some 0b110, some 0b0000000),
            (5, "xor", some .r, 0b0110011, some 0b100, some 0b0000000),
            (6, "andi", some .i, 0b0010011, some 0b111, none),
            (7, "ori", some .i, 0b0010011, some 0b110, none),
            (8, "xori", some .i, 0b0010011, some 0b100, none),
            (9, "beq", some .b, 0b1100011, some 0b000, none),
            (10, "bne", some .b, 0b1100011, some 0b001, none),
            (11, "blt", some .b, 0b1100011, some 0b100, none),
            (12, "bge", some .b, 0b1100011, some 0b101, none),
            (13, "jal", some .j, 0b1101111, none, none),
            (14, "jalr", some .i, 0b1100111, some 0b000, none),
            (15, "lw", none, 0b0000011, some 0b010, none),
            (16, "sw", none, 0b0100011, some 0b010, none),
            (17, "lb", none, 0b0000011, some 0b000, none),
            (18, "sb", none, 0b0100011, some 0b000, none)] :
      List (Nat × String × Option Family × BitVec 7 × Option (BitVec 3) × Option (BitVec 7))),
    (Mnemonic.ofCode (BitVec.ofNat 5 row.1)).map Mnemonic.name = some row.2.1.toList
      ∧ familyOf row.2.1.toList = row.2.2.1
      ∧ Encoder.default.metaOf row.2.1.toList = .ok ⟨row.2.2.2.1, row.2.2.2.2.1, row.2.2.2.2.2⟩

/-- R91, R92: `META` answers on the nineteen names, exactly, and fails with `UnsupportedInstruction` on every other string;
whatever the table's contents, funct3 is absent for `jal` alone and funct7 present for family R alone. -/
def Obligations.MetadataLookupIsExact : Prop :=
  ∀ (e : Encoder) (t : Token),
    (∀ spec : InstructionSpec, e.metaOf t = .ok spec ↔
      ∃ m : Mnemonic, m ∈ Mnemonic.all ∧ t = m.name ∧ spec = e.metadataTable.lookup m)
      ∧ (e.metaOf t = .error .unsupportedInstruction ↔ t ∉ Mnemonic.all.map Mnemonic.name)
      ∧ ∀ spec : InstructionSpec, e.metaOf t = .ok spec →
          (spec.funct3 = none ↔ t = "jal".toList)
            ∧ (spec.funct7 ≠ none ↔ t ∈ ["add".toList, "sub".toList, "and".toList, "or".toList, "xor".toList])

/-- R97 (d), (e): the default table has the cells the source states (R94), and its encodable rows differ as the round-trip claims
need; R97 (a), (b), (c) hold of every table by the types. Sixteen of its rows are the spec's own presumption (log 5). -/
def Obligations.DefaultTableMeetsItsConstraints : Prop := Encoder.default.Conforms

/-! ### The immediate slicer and sign-extender -/

/-- R56: `tc_N(v)` has unsigned value `v mod 2^N`, its bits are those of that value, its sign bit says `v < 0`; no slicer
evaluates it outside its interval; the worked values. -/
def Obligations.TwosComplementBits : Prop :=
  (∀ (n : Nat) (v : Int), 1 ≤ n → inTcRange n v = true →
      ((tc n v).toNat : Int) = v % 2 ^ n
        ∧ (∀ k : Nat, k < n → (tc n v).getLsbD k = decide (v % 2 ^ n / 2 ^ k % 2 = 1))
        ∧ (tc n v).getLsbD (n - 1) = decide (v < 0))
    ∧ (∀ (v : Int) (x : BitVec 12), sliceI v = .ok x → inTcRange 12 v = true ∧ x = tc 12 v)
    ∧ (∀ (v : Int) (x : BitVec 13), sliceB v = .ok x → inTcRange 13 v = true ∧ x = tc 13 v)
    ∧ (∀ (v : Int) (x : BitVec 21), sliceJ v = .ok x → inTcRange 21 v = true ∧ x = tc 21 v)
    ∧ tc 12 10 = 0b000000001010 ∧ tc 12 (-1) = 0b111111111111 ∧ tc 12 (-2048) = 0b100000000000
    ∧ tc 12 2047 = 0b011111111111 ∧ tc 13 (-4) = 0b1111111111100 ∧ tc 21 16 = 0b000000000000000010000

/-- R57: `sext_N` and `zext_N` by value, and the two inverses. -/
def Obligations.SignExtensionInvertsTwosComplement : Prop :=
  ∀ n : Nat, 1 ≤ n →
    (∀ w : BitVec n, zext w = w.toNat)
      ∧ (∀ w : BitVec n, sext w = if w.getLsbD (n - 1) then (w.toNat : Int) - 2 ^ n else (w.toNat : Int))
      ∧ (∀ v : Int, inTcRange n v = true → sext (tc n v) = v)
      ∧ ∀ w : BitVec n, tc n (sext w) = w

/-- R58: on a W-bit immediate input, W > N, the range test is that the bits x[W-1:N-1] are all equal, and in range `tc_N` is
the low N bits. -/
def Obligations.FiniteInputRangeTest : Prop :=
  ∀ (w n : Nat) (x : BitVec w), 1 ≤ n → n < w →
    signCopies n x = inTcRange n x.toInt ∧ (inTcRange n x.toInt = true → tc n x.toInt = x.setWidth n)

/-! ### What each instruction answers

`answers r` says that the encode function gives `r` under the parameters `e`, and that under the hardware's own the machine hands
`r` back from the state `s`. -/

/-- R110, R111 to R115: over every metadata table, `add`, `sub`, `and`, `or`, `xor` on register names answer the word
funct7, rs2, rs1, funct3, rd, opcode; with any other name in any position, `UnknownRegister`. -/
def Obligations.RegisterRegisterWords : Prop :=
  ∀ (e : Encoder) (s : State) (a b c : RegName) (i : Instr) (row : RSpec),
    let answers (r : Result) : Prop :=
      e.encodeRequest i = r ∧ (e = Encoder.default → exec i s = .next { s with results := s.results ++ [r] })
    (i, row) ∈ [(.add a b c, e.metadataTable.add), (.sub a b c, e.metadataTable.sub), (.and a b c, e.metadataTable.and),
                (.or a b c, e.metadataTable.or), (.xor a b c, e.metadataTable.xor)] →
    (∀ rd rs1 rs2 : BitVec 5, a = regName rd → b = regName rs1 → c = regName rs2 →
        answers (.ok (row.funct7 ++ rs2 ++ rs1 ++ row.funct3 ++ rd ++ row.opcode)))
      ∧ ((∀ r, a ≠ regName r) ∨ (∀ r, b ≠ regName r) ∨ (∀ r, c ≠ regName r) → answers (.error .unknownRegister))

/-- R120, R121 to R125, R59: over every metadata table, `addi`, `andi`, `ori`, `xori`, `jalr` on register names answer the
word imm, rs1, funct3, rd, opcode for an immediate in [-2048, 2047] and `ImmediateOverflow` for any other; with any
other name in a register position, `UnknownRegister`, whatever the immediate: that the register wins is the spec's own
decision D12 (R209, log 14). -/
def Obligations.RegisterImmediateWords : Prop :=
  ∀ (e : Encoder) (s : State) (a b : RegName) (v : Int) (i : Instr) (row : FSpec),
    let answers (r : Result) : Prop :=
      e.encodeRequest i = r ∧ (e = Encoder.default → exec i s = .next { s with results := s.results ++ [r] })
    (i, row) ∈ [(.addi a b v, e.metadataTable.addi), (.andi a b v, e.metadataTable.andi), (.ori a b v, e.metadataTable.ori),
                (.xori a b v, e.metadataTable.xori), (.jalr a b v, e.metadataTable.jalr)] →
    (∀ rd rs1 : BitVec 5, a = regName rd → b = regName rs1 →
        (-2048 ≤ v → v ≤ 2047 → answers (.ok (BitVec.ofInt 12 v ++ rs1 ++ row.funct3 ++ rd ++ row.opcode)))
          ∧ (v < -2048 ∨ 2047 < v → answers (.error .immediateOverflow)))
      ∧ ((∀ r, a ≠ regName r) ∨ (∀ r, b ≠ regName r) → answers (.error .unknownRegister))

/-- R130, R131 to R134, R60: over every metadata table, `beq`, `bne`, `blt`, `bge` on register names answer the word
i[12], i[10:5], rs2, rs1, funct3, i[4:1], i[11], opcode for an even offset in [-4096, 4095], `OffsetMisaligned` for an odd
one, `OffsetOutOfRange` for any outside, odd or even; with any other name in a register position, `UnknownRegister`, whatever
the offset. That the register wins, and range before alignment, is the spec's own decision D12 (R62, R209, log 14). -/
def Obligations.BranchWords : Prop :=
  ∀ (e : Encoder) (s : State) (a b : RegName) (v : Int) (i : Instr) (row : FSpec),
    let answers (r : Result) : Prop :=
      e.encodeRequest i = r ∧ (e = Encoder.default → exec i s = .next { s with results := s.results ++ [r] })
    (i, row) ∈ [(.beq a b v, e.metadataTable.beq), (.bne a b v, e.metadataTable.bne), (.blt a b v, e.metadataTable.blt),
                (.bge a b v, e.metadataTable.bge)] →
    (∀ rs1 rs2 : BitVec 5, a = regName rs1 → b = regName rs2 →
        (∀ x : BitVec 13, x = BitVec.ofInt 13 v → -4096 ≤ v → v ≤ 4095 → v % 2 = 0 →
          answers (.ok (x.extractLsb 12 12 ++ x.extractLsb 10 5 ++ rs2 ++ rs1 ++ row.funct3
            ++ x.extractLsb 4 1 ++ x.extractLsb 11 11 ++ row.opcode)))
          ∧ (-4096 ≤ v → v ≤ 4095 → v % 2 = 1 → answers (.error .offsetMisaligned))
          ∧ (v < -4096 ∨ 4095 < v → answers (.error .offsetOutOfRange)))
      ∧ ((∀ r, a ≠ regName r) ∨ (∀ r, b ≠ regName r) → answers (.error .unknownRegister))

/-- R140, R142, R61, R62, R141: over every metadata table and under each layout, `jal` on a register name answers the word of
the layout for an even offset in [-1048576, 1048575], `OffsetMisaligned` for an odd one, `OffsetOutOfRange` for any outside;
with any other name, `UnknownRegister`. The machine's layout is DOC, the normative one (R141). The order of the failures is the
spec's own decision D12 (R62, R209, log 14). -/
def Obligations.JumpWordsUnderEachLayout : Prop :=
  ∀ (e : Encoder) (s : State) (a : RegName) (v : Int) (i : Instr),
    let answers (r : Result) : Prop :=
      e.encodeRequest i = r ∧ (e = Encoder.default → exec i s = .next { s with results := s.results ++ [r] })
    i = .jal a v →
    (∀ rd : BitVec 5, a = regName rd →
        (∀ x : BitVec 21, x = BitVec.ofInt 21 v → -1048576 ≤ v → v ≤ 1048575 → v % 2 = 0 →
          answers (.ok (match e.jLayout with
            | .doc => x.extractLsb 20 20 ++ x.extractLsb 19 12 ++ x.extractLsb 11 11 ++ x.extractLsb 10 1 ++ rd
                ++ e.metadataTable.jal.opcode
            | .std => x.extractLsb 20 20 ++ x.extractLsb 10 1 ++ x.extractLsb 11 11 ++ x.extractLsb 19 12 ++ rd
                ++ e.metadataTable.jal.opcode)))
          ∧ (-1048576 ≤ v → v ≤ 1048575 → v % 2 = 1 → answers (.error .offsetMisaligned))
          ∧ (v < -1048576 ∨ 1048575 < v → answers (.error .offsetOutOfRange)))
      ∧ ((∀ r, a ≠ regName r) → answers (.error .unknownRegister))

/-- R162 to R165: a line whose first token is `lw`, `sw`, `lb` or `sb` answers `UnsupportedInstruction`, whatever follows; `META` of
each succeeds, with the default table's row, whose values are the spec's own presumption (log 5). The model's choice: that the
four have a constructor and a meaning of their own (log 19), which answers so too; no typed request names them (R168, D24). -/
def Obligations.UnroutedMnemonicsAreRefused : Prop :=
  ∀ row ∈ ([(.lw, "lw", 0b0000011, 0b010), (.sw, "sw", 0b0100011, 0b010),
            (.lb, "lb", 0b0000011, 0b000), (.sb, "sb", 0b0100011, 0b000)] :
      List (Instr × String × BitVec 7 × BitVec 3)),
    (∀ s : State, exec row.1 s = .next { s with results := s.results ++ [.error .unsupportedInstruction] })
      ∧ (∀ (s : State) (line : Line) (ops : List Token) (rest : List Call),
          tokens line = row.2.1.toList :: ops → s.calls = .line line :: rest →
          step s = .next { s with calls := rest, results := s.results ++ [.error .unsupportedInstruction] })
      ∧ (∀ (e : Encoder) (line : Line) (ops : List Token), tokens line = row.2.1.toList :: ops →
          e.encodeCall (.line line) = .error .unsupportedInstruction)
      ∧ (∀ q : Request, q.instr ≠ row.1)
      ∧ Encoder.default.metaOf row.2.1.toList = .ok ⟨row.2.2.1, some row.2.2.2, none⟩

/-- R201 to R207 on an instruction, over every metadata table and either layout: each failure kind and what causes it, and nothing
else does; the machine hands the encode function's result back. Registers before the immediate and range before alignment are the
spec's own decision D12 (R209, log 14). The model's choice: that `lw`, `sw`, `lb`, `sb` are instructions of their own (log 11,
log 19; no typed request names them, R168), and so that they, and no other, answer `UnsupportedInstruction` (R162 to R165, R202). -/
def Obligations.RequestFailuresAndTheirCauses : Prop :=
  ∀ (e : Encoder) (s : State) (i : Instr),
    let fails (k : Failure) : Prop := e.encodeRequest i = .error k
    let bad (name : RegName) : Prop := ∀ r : BitVec 5, name ≠ regName r
    exec i s = .next { s with results := s.results ++ [Encoder.default.encodeRequest i] }
      ∧ (fails .unknownRegister ↔
        (∃ (m : RMnemonic) (a b c : RegName), i = m.request a b c ∧ (bad a ∨ bad b ∨ bad c))
          ∨ (∃ (m : IMnemonic) (a b : RegName) (v : Int), i = m.request a b v ∧ (bad a ∨ bad b))
          ∨ (∃ (m : BMnemonic) (a b : RegName) (v : Int), i = m.request a b v ∧ (bad a ∨ bad b))
          ∨ ∃ (a : RegName) (v : Int), i = .jal a v ∧ bad a)
      ∧ (fails .unsupportedInstruction ↔ i = .lw ∨ i = .sw ∨ i = .lb ∨ i = .sb)
      ∧ ¬ fails .operandArityMismatch ∧ ¬ fails .invalidImmediateSyntax
      ∧ (fails .immediateOverflow ↔ ∃ (m : IMnemonic) (rd rs1 : BitVec 5) (v : Int),
          i = m.request (regName rd) (regName rs1) v ∧ (v < -2048 ∨ 2047 < v))
      ∧ (fails .offsetOutOfRange ↔
          (∃ (m : BMnemonic) (rs1 rs2 : BitVec 5) (v : Int),
            i = m.request (regName rs1) (regName rs2) v ∧ (v < -4096 ∨ 4095 < v))
          ∨ ∃ (rd : BitVec 5) (v : Int), i = .jal (regName rd) v ∧ (v < -1048576 ∨ 1048575 < v))
      ∧ (fails .offsetMisaligned ↔
          (∃ (m : BMnemonic) (rs1 rs2 : BitVec 5) (v : Int),
            i = m.request (regName rs1) (regName rs2) v ∧ -4096 ≤ v ∧ v ≤ 4095 ∧ v % 2 = 1)
          ∨ ∃ (rd : BitVec 5) (v : Int), i = .jal (regName rd) v ∧ -1048576 ≤ v ∧ v ≤ 1048575 ∧ v % 2 = 1)

/-- The sum forms of R111 to R115 under the default table: base + (rs2 << 20) + (rs1 << 15) + (rd << 7). -/
def Obligations.RegisterRegisterWordsBySum : Prop :=
  ∀ (s : State) (rd rs1 rs2 : BitVec 5) (i : Instr) (base : Nat),
    (i, base) ∈ [(.add (regName rd) (regName rs1) (regName rs2), 0x00000033),
                 (.sub (regName rd) (regName rs1) (regName rs2), 0x40000033),
                 (.and (regName rd) (regName rs1) (regName rs2), 0x00007033),
                 (.or (regName rd) (regName rs1) (regName rs2), 0x00006033),
                 (.xor (regName rd) (regName rs1) (regName rs2), 0x00004033)] →
    ∃ w : Word, exec i s = .next { s with results := s.results ++ [.ok w] }
      ∧ w.toNat = base + rs2.toNat * 2 ^ 20 + rs1.toNat * 2 ^ 15 + rd.toNat * 2 ^ 7

/-- The sum forms of R121 to R125 under the default table: base + ((imm mod 4096) << 20) + (rs1 << 15) + (rd << 7). -/
def Obligations.RegisterImmediateWordsBySum : Prop :=
  ∀ (s : State) (rd rs1 : BitVec 5) (v : Int) (i : Instr) (base : Nat),
    -2048 ≤ v → v ≤ 2047 →
    (i, base) ∈ [(.addi (regName rd) (regName rs1) v, 0x00000013), (.andi (regName rd) (regName rs1) v, 0x00007013),
                 (.ori (regName rd) (regName rs1) v, 0x00006013), (.xori (regName rd) (regName rs1) v, 0x00004013),
                 (.jalr (regName rd) (regName rs1) v, 0x00000067)] →
    ∃ w : Word, exec i s = .next { s with results := s.results ++ [.ok w] }
      ∧ (w.toNat : Int) = base + v % 4096 * 2 ^ 20 + rs1.toNat * 2 ^ 15 + rd.toNat * 2 ^ 7

/-- The sum forms of R131 to R134 under the default table, with u the unsigned value of `tc_13(off)`:
base + (u[12] << 31) + (u[10:5] << 25) + (rs2 << 20) + (rs1 << 15) + (u[4:1] << 8) + (u[11] << 7). -/
def Obligations.BranchWordsBySum : Prop :=
  ∀ (s : State) (rs1 rs2 : BitVec 5) (v : Int) (u : Nat) (i : Instr) (base : Nat),
    -4096 ≤ v → v ≤ 4095 → v % 2 = 0 → (u : Int) = v % 8192 →
    (i, base) ∈ [(.beq (regName rs1) (regName rs2) v, 0x00000063), (.bne (regName rs1) (regName rs2) v, 0x00001063),
                 (.blt (regName rs1) (regName rs2) v, 0x00004063), (.bge (regName rs1) (regName rs2) v, 0x00005063)] →
    ∃ w : Word, exec i s = .next { s with results := s.results ++ [.ok w] }
      ∧ w.toNat = base + u / 4096 * 2 ^ 31 + u / 32 % 64 * 2 ^ 25 + rs2.toNat * 2 ^ 20 + rs1.toNat * 2 ^ 15
          + u / 2 % 16 * 2 ^ 8 + u / 2048 % 2 * 2 ^ 7

/-- The sum forms of R142 under the default table, with u the unsigned value of `tc_21(off)`: under DOC
0x6F + ((u >> 1) << 12) + (rd << 7), under STD 0x6F + (u[20] << 31) + (u[10:1] << 21) + (u[11] << 20) + (u[19:12] << 12)
+ (rd << 7). The machine's layout is DOC (R141). -/
def Obligations.JumpWordsBySum : Prop :=
  ∀ (s : State) (l : JLayout) (rd : BitVec 5) (v : Int) (u : Nat),
    -1048576 ≤ v → v ≤ 1048575 → v % 2 = 0 → (u : Int) = v % 2097152 →
    ∃ w : Word, { Encoder.default with jLayout := l }.encodeRequest (.jal (regName rd) v) = .ok w
      ∧ (l = .doc → exec (.jal (regName rd) v) s = .next { s with results := s.results ++ [.ok w] })
      ∧ w.toNat = 0x6F + rd.toNat * 2 ^ 7 + (match l with
          | .doc => u / 2 * 2 ^ 12
          | .std => u / 1048576 * 2 ^ 31 + u / 2 % 1024 * 2 ^ 21 + u / 2048 % 2 * 2 ^ 20 + u / 4096 % 256 * 2 ^ 12)

/-- R208, R55: a request is answered with a word exactly when no failure applies to it, and the word is the shift form of its
format; so the encode function under every parameter, and the machine under the hardware's own. -/
def Obligations.WordExactlyWhenWellFormed : Prop :=
  (∀ (e : Encoder) (i : Instr),
      (∀ w : Word, e.encodeRequest i = .ok w ↔ encode e i = some w)
        ∧ (i.wellFormed = true ↔ ∃ w : Word, e.encodeRequest i = .ok w)
        ∧ (i.wellFormed = false ↔ ∃ k : Failure, e.encodeRequest i = .error k))
    ∧ ∀ (s : State) (i : Instr),
      (∀ w : Word, exec i s = .next { s with results := s.results ++ [.ok w] } ↔ encode Encoder.default i = some w)
        ∧ (i.wellFormed = true ↔ ∃ w : Word, exec i s = .next { s with results := s.results ++ [.ok w] })
        ∧ (i.wellFormed = false ↔ ∃ k : Failure, exec i s = .next { s with results := s.results ++ [.error k] })

/-! ### The front end -/

/-- One step answers one call: it runs the request the call reads as, or reports the failure of the reading; a typed
request is read as its instruction; with no call presented nothing happens (the model's choice, log 4). -/
def Obligations.StepRunsTheDecodedCall : Prop :=
  ∀ s : State,
    (∀ (c : Call) (rest : List Call) (i : Instr), s.calls = c :: rest → c.parse = .ok i →
        step s = exec i { s with calls := rest })
      ∧ (∀ (c : Call) (rest : List Call) (k : Failure), s.calls = c :: rest → c.parse = .error k →
        step s = .next { s with calls := rest, results := s.results ++ [.error k] })
      ∧ (∀ q : Request, (Call.request q).parse = .ok q.instr)
      ∧ (s.calls = [] → step s = .next s)

/-- R158: on every line, one step answers what the dispatcher as one function answers, in its normative order of checks. The
white space, empty line, spelling, commas, immediate grammar and failure order that both sides share are the spec's own
decisions D7 to D12 (log 14). -/
def Obligations.LineStepIsTheNormativeDispatcher : Prop :=
  ∀ (e : Encoder) (line : Line),
    e.encodeCall (.line line) = encodeLine e line
      ∧ ∀ (s : State) (rest : List Call), s.calls = .line line :: rest →
        step s = .next { s with calls := rest, results := s.results ++ [encodeLine Encoder.default line] }

/-- R202: a line answers `UnsupportedInstruction` exactly when it has no tokens or its first token is none of the fifteen
encodable mnemonics letter for letter, whatever follows. The line without tokens (R167, D8) and the letter-for-letter match
(R153, D9) are the spec's own decisions (log 14). -/
def Obligations.UnsupportedExactlyByFirstToken : Prop :=
  ∀ line : Line,
    let cause : Prop := tokens line = [] ∨ ∃ (t : Token) (ops : List Token), tokens line = t :: ops ∧
      t ∉ ["add".toList, "sub".toList, "and".toList, "or".toList, "xor".toList, "addi".toList, "andi".toList,
           "ori".toList, "xori".toList, "jalr".toList, "beq".toList, "bne".toList, "blt".toList, "bge".toList,
           "jal".toList]
    (∀ e : Encoder, e.encodeCall (.line line) = .error .unsupportedInstruction ↔ cause)
      ∧ ∀ (s : State) (rest : List Call), s.calls = .line line :: rest →
        (step s = .next { s with calls := rest, results := s.results ++ [.error .unsupportedInstruction] } ↔ cause)

/-- R155: after an encodable mnemonic, the answer is `OperandArityMismatch` exactly when the number of operand tokens is not 3
(R, I, B) or 2 (J), whatever the tokens are. -/
def Obligations.ArityExactlyByTokenCount : Prop :=
  ∀ (line : Line) (t : Token) (ops : List Token) (f : Family), tokens line = t :: ops → familyOf t = some f →
    let cause : Prop := ops.length ≠ (match f with | .r => 3 | .i => 3 | .b => 3 | .j => 2)
    (∀ e : Encoder, e.encodeCall (.line line) = .error .operandArityMismatch ↔ cause)
      ∧ ∀ (s : State) (rest : List Call), s.calls = .line line :: rest →
        (step s = .next { s with calls := rest, results := s.results ++ [.error .operandArityMismatch] } ↔ cause)

/-- R204, R209: on a line with the right number of operand tokens, the answer is `InvalidImmediateSyntax` exactly when the
immediate token does not parse, whatever the register tokens are; never for family R. -/
def Obligations.InvalidImmediateExactlyByItsToken : Prop :=
  ∀ (e : Encoder) (s : State) (line : Line) (rest : List Call) (t a b x : Token) (f : Family),
    s.calls = .line line :: rest → familyOf t = some f →
    let fails : Prop := e.encodeCall (.line line) = .error .invalidImmediateSyntax
    let stepFails : Prop := step s = .next { s with calls := rest, results := s.results ++ [.error .invalidImmediateSyntax] }
    (f = .i ∧ tokens line = [t, a, b, x] ∨ f = .b ∧ tokens line = [t, a, b, x] ∨ f = .j ∧ tokens line = [t, a, x] →
      (fails ↔ ∀ v : Int, parseImm x ≠ .ok v) ∧ (stepFails ↔ ∀ v : Int, parseImm x ≠ .ok v))
      ∧ (f = .r → ∀ ops : List Token, tokens line = t :: ops → ¬ fails ∧ ¬ stepFails)

/-- R157: a line whose tokens fit its mnemonic's family calls the family's encoder with the stripped register tokens and the
parsed integer, and its word or failure is handed back unchanged: the step is the meaning of that request. -/
def Obligations.FittingLineRunsItsRequest : Prop :=
  ∀ (e : Encoder) (s : State) (line : Line) (rest : List Call) (a b c x : Token) (v : Int), s.calls = .line line :: rest →
    let runs (i : Instr) (encoder : Encoder → Result) : Prop :=
      e.encodeCall (.line line) = encoder e
        ∧ step s = exec i { s with calls := rest }
        ∧ step s = .next { s with calls := rest, results := s.results ++ [encoder Encoder.default] }
    (∀ m : RMnemonic, tokens line = [(Mnemonic.r m).name, a, b, c] →
        runs (m.request (stripCommas a) (stripCommas b) (stripCommas c)) fun e =>
          e.encR m (stripCommas a) (stripCommas b) (stripCommas c))
      ∧ (∀ m : IMnemonic, tokens line = [(Mnemonic.i m).name, a, b, x] → parseImm x = .ok v →
        runs (m.request (stripCommas a) (stripCommas b) v) fun e => e.encI m (stripCommas a) (stripCommas b) v)
      ∧ (∀ m : BMnemonic, tokens line = [(Mnemonic.b m).name, a, b, x] → parseImm x = .ok v →
        runs (m.request (stripCommas a) (stripCommas b) v) fun e => e.encB m (stripCommas a) (stripCommas b) v)
      ∧ (tokens line = [Mnemonic.jal.name, a, x] → parseImm x = .ok v →
        runs (.jal (stripCommas a) v) fun e => e.encJ (stripCommas a) v)

/-- R156: an immediate token parses exactly when it is an optional sign and one or more decimal digits, and its value is the
number they spell; every other token is `InvalidImmediateSyntax`. -/
def Obligations.ImmediateTokenGrammar : Prop :=
  ∀ t : Token,
    (∀ v : Int, parseImm t = .ok v ↔
      ∃ (sign ds : List Char) (n : Nat),
        t = sign ++ ds ∧ ds ≠ [] ∧ (∀ c ∈ ds, c ∈ "0123456789".toList)
          ∧ n = ds.foldl (fun n c => 10 * n + (c.toNat - 48)) 0
          ∧ ((sign = [] ∧ v = n) ∨ (sign = ['+'] ∧ v = n) ∨ (sign = ['-'] ∧ v = -n)))
      ∧ ((∀ v : Int, parseImm t ≠ .ok v) → parseImm t = .error .invalidImmediateSyntax)

/-- R151, R152: white space is the six ASCII characters; a token is never empty and holds none; white space at either end is
ignored, a run of it separates like one character, and nothing else separates. -/
def Obligations.TokensAreMaximalRuns : Prop :=
  (∀ c : Char, isWhite c = true ↔
      c ∈ [' ', '\t', '\n', Char.ofNat 0x0B, Char.ofNat 0x0C, '\r'])
    ∧ (∀ (l : Line) (t : Token), t ∈ tokens l → t ≠ [] ∧ ∀ c ∈ t, isWhite c = false)
    ∧ (∀ (ws l : Line), (∀ c ∈ ws, isWhite c = true) → tokens (ws ++ l) = tokens l ∧ tokens (l ++ ws) = tokens l)
    ∧ (∀ (ws l l' : Line), (∀ c ∈ ws, isWhite c = true) → ws ≠ [] → tokens (l ++ ws ++ l') = tokens l ++ tokens l')
    ∧ ∀ t : Token, t ≠ [] → (∀ c ∈ t, isWhite c = false) → tokens t = [t]

/-- A line and the same line with a run of white space replaced by another get the same result (95 section 9, property e). -/
def Obligations.WhiteSpaceRunsAreInterchangeable : Prop :=
  ∀ (l l' ws ws' : Line), (∀ c ∈ ws, isWhite c = true) → ws ≠ [] → (∀ c ∈ ws', isWhite c = true) → ws' ≠ [] →
    (∀ e : Encoder, e.encodeCall (.line (l ++ ws ++ l')) = e.encodeCall (.line (l ++ ws' ++ l')))
      ∧ ∀ (s s' : State) (rest : List Call) (t : State), s.calls = .line (l ++ ws ++ l') :: rest →
        s' = { s with calls := .line (l ++ ws' ++ l') :: rest } → (step s = .next t ↔ step s' = .next t)

/-- R154: stripping removes every trailing comma of a register token and nothing else; a token of commas alone becomes the
empty string. -/
def Obligations.TrailingCommasAreStripped : Prop :=
  (∀ t : Token, ∃ n : Nat, t = stripCommas t ++ List.replicate n ',')
    ∧ (∀ (t : Token) (n : Nat), stripCommas (t ++ List.replicate n ',') = stripCommas t)
    ∧ (∀ (t : Token) (c : Char), c ≠ ',' → stripCommas (t ++ [c]) = t ++ [c])
    ∧ ∀ n : Nat, stripCommas (List.replicate n ',') = []

/-- R159: every canonical line is accepted, and answered with the word of the request it spells. -/
def Obligations.CanonicalLinesAreAccepted : Prop :=
  ∀ i : Instr, i.wellFormed = true →
    (∀ e : Encoder, ∃ w : Word, encode e i = some w ∧ e.encodeCall (.line (canonicalLine i)) = .ok w)
      ∧ ∀ (s : State) (rest : List Call), s.calls = .line (canonicalLine i) :: rest →
        ∃ w : Word, encode Encoder.default i = some w
          ∧ step s = .next { s with calls := rest, results := s.results ++ [.ok w] }

/-! ### The decode direction -/

/-- R64 to R67, R69: for every encoder whose tables meet the spec's constraints, under either layout, decoding the word of a
well-formed request gives the request back, names and integer alike. -/
def Obligations.DecodeOfEncodeIsTheRequest : Prop :=
  ∀ (e : Encoder) (i : Instr) (w : Word), e.Conforms → encode e i = some w → decode e w = .ok i

/-- The other direction: a word that decodes to a request of an encodable mnemonic is that request's word, so no bit of a
format is dropped. -/
def Obligations.EncodeOfDecodeIsTheWord : Prop :=
  ∀ (e : Encoder) (w : Word) (i : Instr), decode e w = .ok i → i.mnemonic ∈ Mnemonic.encodable → encode e i = some w

/-- R136, R143: decoding a word that the branch or jump encoder returned, under the same layout, and encoding the decoded
mnemonic, registers and offset again returns the word. -/
def Obligations.BranchAndJumpEncodingIsIdempotent : Prop :=
  ∀ (e : Encoder) (w : Word),
    (∀ (m : BMnemonic) (a b : RegName) (v : Int), e.encB m a b v = .ok w →
        a = regName (rs1Of w) ∧ b = regName (rs2Of w) ∧ v = offBOf w
          ∧ e.encB m (regName (rs1Of w)) (regName (rs2Of w)) (offBOf w) = .ok w)
      ∧ ∀ (a : RegName) (v : Int), e.encJ a v = .ok w →
        a = regName (rdOf w) ∧ v = offJOf e.jLayout w
          ∧ e.encJ (regName (rdOf w)) (offJOf e.jLayout w) = .ok w

/-- R69: under tables that meet the constraints, two requests answered with one word are the same request. -/
def Obligations.DistinctRequestsGetDistinctWords : Prop :=
  ∀ (i j : Instr) (w : Word),
    (∀ e : Encoder, e.Conforms → e.encodeRequest i = .ok w → e.encodeRequest j = .ok w → i = j)
      ∧ ∀ s : State, exec i s = .next { s with results := s.results ++ [.ok w] } →
        exec j s = .next { s with results := s.results ++ [.ok w] } → i = j

/-- R69, R70: under the default table, and either layout, a word answered to any call ends in the bits 11 and has one of the
five opcodes of the formats; never 0000011 or 0100011. -/
def Obligations.AnsweredWordsEndInOnes : Prop :=
  ∀ (c : Call) (w : Word),
    let inFormat : Prop := w.extractLsb 1 0 = 0b11
      ∧ opcodeOf w ∈ ([0b0110011, 0b0010011, 0b1100111, 0b1100011, 0b1101111] : List (BitVec 7))
    (∀ l : JLayout, { Encoder.default with jLayout := l }.encodeCall c = .ok w → inFormat)
      ∧ ∀ s t : State, s.calls = [c] → step s = .next t → t.results = s.results ++ [.ok w] → inFormat

/-- R54, R141: the two jump layouts give the same word exactly when i[19:12], i[11], i[10:1] is the same string as
i[10:1], i[11], i[19:12]. -/
def Obligations.JumpLayoutsAgreeExactly : Prop :=
  ∀ (i : BitVec 21) (rd : BitVec 5) (op : BitVec 7),
    layoutJ .doc i rd op = layoutJ .std i rd op ↔
      (i.extractLsb 19 12 ++ i.extractLsb 11 11 ++ i.extractLsb 10 1 : BitVec 19) =
        (i.extractLsb 10 1 ++ i.extractLsb 11 11 ++ i.extractLsb 19 12 : BitVec 19)

/-- The failure of a call never depends on J_LAYOUT (95 section 9, property d). -/
def Obligations.FailuresDoNotDependOnLayout : Prop :=
  ∀ (l : JLayout) (k : Failure) (c : Call),
    (∀ e : Encoder, e.encodeCall c = .error k ↔ { e with jLayout := l }.encodeCall c = .error k)
      ∧ ∀ (s : State) (rest : List Call), s.calls = c :: rest →
        (step s = .next { s with calls := rest, results := s.results ++ [.error k] } ↔
          { Encoder.default with jLayout := l }.encodeCall c = .error k)

/-- Words written out from R51 to R54 decode to the instructions they stand for (95 section 9, decode vectors). -/
def Obligations.WrittenOutWordsDecode : Prop :=
  decode Encoder.default (0b01000000110001011000010100110011) = .ok (.sub "x10".toList "x11".toList "x12".toList)
    ∧ decode Encoder.default (0b11111111111100110000001010010011) = .ok (.addi "x5".toList "x6".toList (-1))
    ∧ decode Encoder.default (0b10000000000000101000000011100111) = .ok (.jalr "x1".toList "x5".toList (-2048))
    ∧ decode Encoder.default (0b11111110001000001000111011100011) = .ok (.beq "x1".toList "x2".toList (-4))
    ∧ decode Encoder.default (0b00000000000000001000000011101111) = .ok (.jal "x1".toList 16)
    ∧ decode { Encoder.default with jLayout := .std } (0b00000001000000000000000011101111) = .ok (.jal "x1".toList 16)
    ∧ decode { Encoder.default with jLayout := .std } (0b00000000000000001000000011101111) =
        .ok (.jal "x1".toList 32768)

/-! ### The machine -/

/-- The invariant every step keeps: every word ever handed back, by whichever call, is one the encoder can return (R69, R208). The
record of what was handed back is the model's own (log 3). -/
def Obligations.StepKeepsTheInvariant : Prop :=
  ∀ s t : State, s.Inv → step s = .next t → t.Inv

/-- The invariant holds after reset. -/
def Obligations.ResetMeetsTheInvariant : Prop := State.reset.Inv

/-- R169: a call of any form has one result, the same in every state, and answering it changes nothing else. -/
def Obligations.EveryCallIsAnsweredOnce : Prop :=
  ∀ c : Call, ∃ r : Result, ∀ (s : State) (rest : List Call), s.calls = c :: rest →
    step s = .next { s with calls := rest, results := s.results ++ [r] }

/-- R23: no call, no failure and no input writes either table, and every supported mnemonic has exactly one InstructionSpec. The
tables are constants, so this says what a write would change: after any number of steps a call still gets the result that the tables
as they stand from reset give it. The model's own clause: results are only added to its record (log 3). -/
def Obligations.NoStepWritesTheTables : Prop :=
  (∀ (n : Nat) (s t : State), Sys2Proof.core.run n s = .next t →
      (∃ rs : List Result, t.results = s.results ++ rs)
        ∧ ∀ (c : Call) (rest : List Call), t.calls = c :: rest →
          step t = .next { t with calls := rest, results := t.results ++ [Encoder.default.encodeCall c] })
    ∧ ∀ (e : Encoder), ∀ m ∈ Mnemonic.all, ∃ spec : InstructionSpec, ∀ x : InstructionSpec,
      e.metaOf m.name = .ok x ↔ x = spec

/-- R25, R46, R212: the result of a call depends on that call and the two tables (and J_LAYOUT), which are constants, alone: not on
earlier calls, earlier results or failures, or the calls that wait. -/
def Obligations.ResultDependsOnCallAndTablesAlone : Prop :=
  ∀ (s s' : State) (c : Call) (rest rest' : List Call) (r : Result),
    s.calls = c :: rest → s'.calls = c :: rest' →
    step s = .next { s with calls := rest, results := s.results ++ [r] } →
    step s' = .next { s' with calls := rest', results := s'.results ++ [r] }

/-- A sequence of lines gets the sequence of their results, each the normative dispatcher's, in line order (R25, R212, 95
section 8). -/
def Obligations.LinesGetTheirResultsInOrder : Prop :=
  ∀ (s : State) (lines : List Line) (rest : List Call), s.calls = lines.map Call.line ++ rest →
    Sys2Proof.core.run lines.length s =
      .next { s with calls := rest, results := s.results ++ lines.map (encodeLine Encoder.default) }

/-- No run of any state ever stops (R216). -/
def Obligations.NoRunEverStops : Prop := ∀ s : State, s.Safe

/-! ### Ports and renderings -/

/-- R41, R9: the string form has 32 characters, each 0 or 1, character k is bit 31-k, and the unsigned integer is its value
read most significant first. -/
def Obligations.WordStringIsMostSignificantFirst : Prop :=
  ∀ w : Word, (wordString w).length = 32
    ∧ (∀ c ∈ wordString w, c = '0' ∨ c = '1')
    ∧ (∀ k : Nat, k < 32 → ((wordString w)[k]? = some '1' ↔ w.getLsbD (31 - k) = true))
    ∧ (wordString w).foldl (fun n c => 2 * n + (c.toNat - 48)) 0 = w.toNat

/-- R210, 92 D2: the pins after a call. On a word, `ok` is 1, `word` is it and `fail` is 0; on a failure, `ok` is 0 and `fail`
is the kind's code, whatever `word` carries; the codes are 1 to 7 in the order of the kinds. -/
def Obligations.PinsShowTheResult : Prop :=
  (∀ (s : State) (rs : List Result),
      (∀ w : Word, s.results = rs ++ [.ok w] → s.pins = some ⟨true, w, 0⟩)
        ∧ ∀ k : Failure, s.results = rs ++ [.error k] → ∃ any : Word, s.pins = some ⟨false, any, k.code⟩)
    ∧ [Failure.unknownRegister, .unsupportedInstruction, .operandArityMismatch, .invalidImmediateSyntax,
       .immediateOverflow, .offsetOutOfRange, .offsetMisaligned].map Failure.code = [1, 2, 3, 4, 5, 6, 7]

/-- 92 D19, R168: a port code is the mnemonic's row number; codes 0 to 14 run the encoder's request with the operands its
family uses, codes 15 to 31 answer `UnsupportedInstruction`. -/
def Obligations.PortCodesSelectTheMnemonic : Prop :=
  (∀ m ∈ Mnemonic.all, Mnemonic.ofCode m.code = some m)
    ∧ ∀ (s : State) (code : BitVec 5) (r0 r1 r2 : RegName) (v : Int) (rest : List Call),
      s.calls = .port code r0 r1 r2 v :: rest →
      (15 ≤ code.toNat →
          step s = .next { s with calls := rest, results := s.results ++ [.error .unsupportedInstruction] })
        ∧ ∀ i : Instr,
          (code, i) ∈ ([(0, .add r0 r1 r2), (1, .sub r0 r1 r2), (2, .addi r0 r1 v), (3, .and r0 r1 r2), (4, .or r0 r1 r2),
            (5, .xor r0 r1 r2), (6, .andi r0 r1 v), (7, .ori r0 r1 v), (8, .xori r0 r1 v), (9, .beq r0 r1 v),
            (10, .bne r0 r1 v), (11, .blt r0 r1 v), (12, .bge r0 r1 v), (13, .jal r0 v), (14, .jalr r0 r1 v)] :
            List (BitVec 5 × Instr)) →
          step s = exec i { s with calls := rest }

/-! ### The tables as parameters -/

/-- R20, R24, R25: a run is the encode function of each call in turn, the constant tables its parameter, and nothing a call leaves
behind reaches a later one: what a run changes is the caller's calls and the model's record of results (log 2, log 3). With no
call left the state stays (log 4). -/
def Obligations.RunsAreTheEncodeFunctionOfTheirCalls : Prop :=
  ∀ (n : Nat) (s : State),
    Sys2Proof.core.run n s =
      .next { s with calls := s.calls.drop n,
                     results := s.results ++ (s.calls.take n).map Encoder.default.encodeCall }

/-- R168: a typed request calls the encoder of its mnemonic's family, and cannot fail with `OperandArityMismatch`,
`InvalidImmediateSyntax` or `UnsupportedInstruction`; only a port code of 15 to 31 (D19) answers the last, and every one of these
does. -/
def Obligations.TypedRequestsCallTheirFamilysEncoder : Prop :=
  (∀ (e : Encoder) (q : Request),
      e.encodeCall (.request q) = (match q with
        | .r m a b c => e.encR m a b c
        | .i m a b v => e.encI m a b v
        | .b m a b v => e.encB m a b v
        | .j a v => e.encJ a v)
        ∧ ∀ k : Failure, k ∈ [.operandArityMismatch, .invalidImmediateSyntax, .unsupportedInstruction] →
          e.encodeCall (.request q) ≠ .error k
            ∧ ∀ (s : State) (rest : List Call), s.calls = .request q :: rest →
              step s ≠ .next { s with calls := rest, results := s.results ++ [.error k] })
    ∧ ∀ (e : Encoder) (code : BitVec 5) (r0 r1 r2 : RegName) (v : Int),
      e.encodeCall (.port code r0 r1 r2 v) = .error .unsupportedInstruction ↔ 15 ≤ code.toNat
end

