-- ==== Sys2Proof/Laws/Tables.lean ====
section
/-! SUPPORT. The two tables' keys: register names and mnemonics. -/

namespace Sys2Proof

/-! ### Register names -/

theorem regKey_regName_fin : ∀ i : Fin 32, regKey (regName (BitVec.ofFin i)) = some i := by decide

@[simp] theorem regKey_regName (i : BitVec 5) : regKey (regName i) = some i.toFin :=
  regKey_regName_fin i.toFin

theorem eq_regName_of_regKey {name : RegName} {i : Fin 32} (h : regKey name = some i) :
    name = regName (BitVec.ofFin i) := by
  have h := List.find?_some h
  exact (by simpa using h : regName (BitVec.ofFin i) = name).symm

theorem regKey_eq_none {name : RegName} : regKey name = none ↔ ∀ i : BitVec 5, name ≠ regName i := by
  constructor
  · rintro h i rfl
    simp at h
  · intro h
    cases hk : regKey name with
    | none => rfl
    | some i => exact absurd (eq_regName_of_regKey hk) (h _)

@[simp] theorem registerRom_get (i : Fin 32) : registerRom.get i = BitVec.ofFin i := by
  simp [registerRom, Vector.get]
  rfl

theorem regIdx_regName (i : BitVec 5) : regIdx (regName i) = .ok i := by
  simp [regIdx]

theorem regIdx_of_not_name {name : RegName} (h : ∀ i : BitVec 5, name ≠ regName i) :
    regIdx name = .error .unknownRegister := by
  simp [regIdx, regKey_eq_none.2 h]

/-- Every name is a register's or none's: the case split of every register operand. -/
theorem regName_or_not (name : RegName) : (∃ i, name = regName i) ∨ ∀ i, name ≠ regName i := by
  cases hk : regKey name with
  | none => exact .inr (regKey_eq_none.1 hk)
  | some i => exact .inl ⟨_, eq_regName_of_regKey hk⟩

/-! ### Mnemonics -/

@[simp] theorem Mnemonic.ofName_name (m : Mnemonic) : Mnemonic.ofName m.name = some m := by
  rcases m with (_ | _ | _ | _ | _) | (_ | _ | _ | _ | _) | (_ | _ | _ | _) | _ | (_ | _ | _ | _) <;> decide

theorem Mnemonic.name_of_ofName {t : Token} {m : Mnemonic} (h : Mnemonic.ofName t = some m) : t = m.name := by
  have h := List.find?_some h
  exact (by simpa using h : m.name = t).symm

theorem Mnemonic.ofName_eq_none {t : Token} : Mnemonic.ofName t = none ↔ ∀ m : Mnemonic, t ≠ m.name := by
  constructor
  · rintro h m rfl
    simp at h
  · intro h
    cases hk : Mnemonic.ofName t with
    | none => rfl
    | some m => exact absurd (Mnemonic.name_of_ofName hk) (h m)

theorem Mnemonic.mem_all (m : Mnemonic) : m ∈ Mnemonic.all := by
  rcases m with (_ | _ | _ | _ | _) | (_ | _ | _ | _ | _) | (_ | _ | _ | _) | _ | (_ | _ | _ | _) <;> decide

@[simp] theorem RMnemonic.ofName_name (m : RMnemonic) : RMnemonic.ofName (Mnemonic.r m).name = m := by
  cases m <;> decide

@[simp] theorem IMnemonic.ofName_name (m : IMnemonic) : IMnemonic.ofName (Mnemonic.i m).name = m := by
  cases m <;> decide

@[simp] theorem BMnemonic.ofName_name (m : BMnemonic) : BMnemonic.ofName (Mnemonic.b m).name = m := by
  cases m <;> decide

/-- The family of a table mnemonic (41_metadata_table.md R95, R96). -/
def Mnemonic.family : Mnemonic → Option Family
  | .r _ => some .r
  | .i _ => some .i
  | .b _ => some .b
  | .jal => some .j
  | .unrouted _ => none

@[simp] theorem familyOf_name (m : Mnemonic) : familyOf m.name = m.family := by
  rcases m with (_ | _ | _ | _ | _) | (_ | _ | _ | _ | _) | (_ | _ | _ | _) | _ | (_ | _ | _ | _) <;> decide

theorem familyOf_eq_none_of_ofName {t : Token} (h : Mnemonic.ofName t = none) : familyOf t = none := by
  have h := Mnemonic.ofName_eq_none.1 h
  have hr := fun m => h (.r m)
  have hi := fun m => h (.i m)
  have hb := fun m => h (.b m)
  have hj := h .jal
  unfold familyOf
  rw [if_neg, if_neg, if_neg, if_neg]
  · exact hj
  · simp only [List.mem_cons, List.not_mem_nil, or_false, not_or]
    exact ⟨hb .beq, hb .bne, hb .blt, hb .bge⟩
  · simp only [List.mem_cons, List.not_mem_nil, or_false, not_or]
    exact ⟨hi .addi, hi .andi, hi .ori, hi .xori, hi .jalr⟩
  · simp only [List.mem_cons, List.not_mem_nil, or_false, not_or]
    exact ⟨hr .add, hr .sub, hr .and, hr .or, hr .xor⟩

/-! ### Requests -/

@[simp] theorem RMnemonic.request_mnemonic (m : RMnemonic) (a b c : RegName) : (m.request a b c).mnemonic = .r m := by
  cases m <;> rfl

@[simp] theorem IMnemonic.request_mnemonic (m : IMnemonic) (a b : RegName) (v : Int) :
    (m.request a b v).mnemonic = .i m := by
  cases m <;> rfl

@[simp] theorem BMnemonic.request_mnemonic (m : BMnemonic) (a b : RegName) (v : Int) :
    (m.request a b v).mnemonic = .b m := by
  cases m <;> rfl

@[simp] theorem UMnemonic.request_mnemonic (m : UMnemonic) : m.request.mnemonic = .unrouted m := by
  cases m <;> rfl

/-- Every request is one of a family: the case split that follows the formats, not the nineteen constructors. -/
theorem Instr.cases_family (i : Instr) :
    (∃ (m : RMnemonic) (a b c : RegName), i = m.request a b c) ∨
    (∃ (m : IMnemonic) (a b : RegName) (v : Int), i = m.request a b v) ∨
    (∃ (m : BMnemonic) (a b : RegName) (v : Int), i = m.request a b v) ∨
    (∃ (a : RegName) (v : Int), i = .jal a v) ∨
    (∃ m : UMnemonic, i = m.request) := by
  cases i with
  | add a b c => exact .inl ⟨.add, a, b, c, rfl⟩
  | sub a b c => exact .inl ⟨.sub, a, b, c, rfl⟩
  | and a b c => exact .inl ⟨.and, a, b, c, rfl⟩
  | or a b c => exact .inl ⟨.or, a, b, c, rfl⟩
  | xor a b c => exact .inl ⟨.xor, a, b, c, rfl⟩
  | addi a b v => exact .inr (.inl ⟨.addi, a, b, v, rfl⟩)
  | andi a b v => exact .inr (.inl ⟨.andi, a, b, v, rfl⟩)
  | ori a b v => exact .inr (.inl ⟨.ori, a, b, v, rfl⟩)
  | xori a b v => exact .inr (.inl ⟨.xori, a, b, v, rfl⟩)
  | jalr a b v => exact .inr (.inl ⟨.jalr, a, b, v, rfl⟩)
  | beq a b v => exact .inr (.inr (.inl ⟨.beq, a, b, v, rfl⟩))
  | bne a b v => exact .inr (.inr (.inl ⟨.bne, a, b, v, rfl⟩))
  | blt a b v => exact .inr (.inr (.inl ⟨.blt, a, b, v, rfl⟩))
  | bge a b v => exact .inr (.inr (.inl ⟨.bge, a, b, v, rfl⟩))
  | jal a v => exact .inr (.inr (.inr (.inl ⟨a, v, rfl⟩)))
  | lw => exact .inr (.inr (.inr (.inr ⟨.lw, rfl⟩)))
  | sw => exact .inr (.inr (.inr (.inr ⟨.sw, rfl⟩)))
  | lb => exact .inr (.inr (.inr (.inr ⟨.lb, rfl⟩)))
  | sb => exact .inr (.inr (.inr (.inr ⟨.sb, rfl⟩)))

end Sys2Proof
end

