-- ==== Sys2Proof/Laws/Operands.lean ====
section
/-! SUPPORT. The slicers' three outcomes, register and offset checks, and the tokens of a line. -/

namespace Sys2Proof

/-! ### Slicers -/

theorem sliceI_inRange {v : Int} (h : isImmI v = true) : sliceI v = .ok (tc 12 v) := by
  simp only [isImmI, Bool.and_eq_true, decide_eq_true_eq] at h
  rw [sliceI, if_neg (by omega)]

theorem sliceI_overflow {v : Int} (h : isImmI v = false) : sliceI v = .error .immediateOverflow := by
  simp only [isImmI, Bool.and_eq_false_iff, decide_eq_false_iff_not] at h
  rw [sliceI, if_pos (by omega)]

theorem sliceB_inRange {v : Int} (h : isOffB v = true) : sliceB v = .ok (tc 13 v) := by
  simp only [isOffB, Bool.and_eq_true, decide_eq_true_eq] at h
  rw [sliceB, if_neg (by omega), if_neg (by omega)]

theorem sliceJ_inRange {v : Int} (h : isOffJ v = true) : sliceJ v = .ok (tc 21 v) := by
  simp only [isOffJ, Bool.and_eq_true, decide_eq_true_eq] at h
  rw [sliceJ, if_neg (by omega), if_neg (by omega)]

theorem sliceI_ok_iff {v : Int} {x : BitVec 12} : sliceI v = .ok x ↔ isImmI v = true ∧ x = tc 12 v := by
  cases h : isImmI v
  · simp [sliceI_overflow h]
  · simp [sliceI_inRange h, eq_comm]

theorem sliceB_ok_iff {v : Int} {x : BitVec 13} : sliceB v = .ok x ↔ isOffB v = true ∧ x = tc 13 v := by
  cases h : isOffB v
  · simp only [isOffB, Bool.and_eq_false_iff, decide_eq_false_iff_not] at h
    unfold sliceB
    split
    · simp
    · rw [if_pos (by omega)]
      simp
  · simp [sliceB_inRange h, eq_comm]

theorem sliceJ_ok_iff {v : Int} {x : BitVec 21} : sliceJ v = .ok x ↔ isOffJ v = true ∧ x = tc 21 v := by
  cases h : isOffJ v
  · simp only [isOffJ, Bool.and_eq_false_iff, decide_eq_false_iff_not] at h
    unfold sliceJ
    split
    · simp
    · rw [if_pos (by omega)]
      simp
  · simp [sliceJ_inRange h, eq_comm]

/-! ### Two's complement -/

theorem tc_toNat (n : Nat) (v : Int) : ((tc n v).toNat : Int) = v % 2 ^ n := by
  rw [tc, BitVec.toNat_ofInt, Int.toNat_of_nonneg (Int.emod_nonneg _ (by positivity))]
  push_cast
  rfl

/-- The value of `tc` inside its interval. -/
theorem tc_toInt {n : Nat} {v : Int} (hn : 1 ≤ n) (h : inTcRange n v = true) : (tc n v).toInt = v := by
  obtain ⟨m, rfl⟩ : ∃ m, n = m + 1 := ⟨n - 1, by omega⟩
  simp only [inTcRange, Nat.add_sub_cancel, Bool.and_eq_true, decide_eq_true_eq] at h
  rw [tc, BitVec.toInt_ofInt]
  have h2 : ((2 ^ (m + 1) : Nat) : Int) = 2 * 2 ^ m := by push_cast; rw [Int.pow_succ]; omega
  apply Int.bmod_eq_of_le <;> omega

/-! ### Register checks -/

@[simp] theorem isRegName_regName (i : BitVec 5) : isRegName (regName i) = true := by
  simp [isRegName]

theorem isRegName_iff {name : RegName} : isRegName name = true ↔ ∃ i, name = regName i := by
  constructor
  · intro h
    rcases regName_or_not name with h' | h'
    · exact h'
    · simp [isRegName, regKey_eq_none.2 h'] at h
  · rintro ⟨i, rfl⟩
    simp

/-! ### Well-formedness by family -/

@[simp] theorem RMnemonic.request_wellFormed (m : RMnemonic) (a b c : RegName) :
    (m.request a b c).wellFormed = (isRegName a && isRegName b && isRegName c) := by
  cases m <;> rfl

@[simp] theorem IMnemonic.request_wellFormed (m : IMnemonic) (a b : RegName) (v : Int) :
    (m.request a b v).wellFormed = (isRegName a && isRegName b && isImmI v) := by
  cases m <;> rfl

@[simp] theorem BMnemonic.request_wellFormed (m : BMnemonic) (a b : RegName) (v : Int) :
    (m.request a b v).wellFormed = (isRegName a && isRegName b && isOffB v) := by
  cases m <;> rfl

@[simp] theorem UMnemonic.request_wellFormed (m : UMnemonic) : m.request.wellFormed = false := by
  cases m <;> rfl

/-! ### Tokens -/

theorem tokens_white {c : Char} (h : isWhite c = true) (l : Line) : tokens (c :: l) = tokens l := by
  rw [tokens.eq_def]
  simp [h]

theorem tokens_single {c : Char} (h : isWhite c = false) : tokens [c] = [[c]] := by
  simp [tokens, h]

theorem tokens_before_white {c d : Char} (hc : isWhite c = false) (hd : isWhite d = true) (l : Line) :
    tokens (c :: d :: l) = [c] :: tokens (d :: l) := by
  rw [tokens.eq_def]
  simp [hc, hd]

theorem tokens_before_token {c d : Char} (hc : isWhite c = false) (hd : isWhite d = false) (l : Line) :
    tokens (c :: d :: l) = match tokens (d :: l) with
      | [] => [[c]]
      | t :: ts => (c :: t) :: ts := by
  rw [tokens.eq_def]
  simp only [hc, hd, Bool.false_eq_true, if_false] <;> rfl

/-- A token stands as one token before a white-space character. -/
theorem tokens_token_white {t : Token} (ht : ∀ c ∈ t, isWhite c = false) (hne : t ≠ []) {d : Char}
    (hd : isWhite d = true) (l : Line) : tokens (t ++ d :: l) = t :: tokens l := by
  induction t with
  | nil => exact absurd rfl hne
  | cons c t ih =>
    have hc : isWhite c = false := ht c (by simp)
    cases t with
    | nil =>
      rw [List.singleton_append, tokens_before_white hc hd, tokens_white hd]
    | cons c' t =>
      have hc' : isWhite c' = false := ht c' (by simp)
      have ih := ih (fun x hx => ht x (by simp [hx])) (by simp)
      rw [List.cons_append, List.cons_append, tokens_before_token hc hc']
      rw [List.cons_append] at ih
      rw [ih]

/-- A token alone on a line is that line's one token. -/
theorem tokens_token {t : Token} (ht : ∀ c ∈ t, isWhite c = false) (hne : t ≠ []) : tokens t = [t] := by
  induction t with
  | nil => exact absurd rfl hne
  | cons c t ih =>
    have hc : isWhite c = false := ht c (by simp)
    cases t with
    | nil => exact tokens_single hc
    | cons c' t =>
      have hc' : isWhite c' = false := ht c' (by simp)
      rw [tokens_before_token hc hc', ih (fun x hx => ht x (by simp [hx])) (by simp)]

/-! ### Digits -/

theorem parseDigits_append (n : Nat) (xs ys : List Char) :
    parseDigits n (xs ++ ys) = (parseDigits n xs).bind fun k => parseDigits k ys := by
  induction xs generalizing n with
  | nil => rfl
  | cons c xs ih =>
    by_cases h : 48 ≤ c.toNat ∧ c.toNat ≤ 57
    · simp [parseDigits, h, ih]
    · simp [parseDigits, h]

theorem digitChar_toNat {d : Nat} (h : d < 10) : (digitChar d).toNat = 48 + d := by
  have : ∀ d : Fin 10, (digitChar d).toNat = 48 + d.val := by decide
  exact this ⟨d, h⟩

/-- Reading a numeral back: the digits of `n` before `acc` continue a number as multiplication by ten does. -/
theorem parseDigits_decimalAux (fuel : Nat) : ∀ (n : Nat) (acc : List Char), n < 10 ^ fuel →
    parseDigits 0 (decimalAux fuel n acc) = parseDigits n acc := by
  induction fuel with
  | zero => intro n acc h; rw [show n = 0 by omega]; rfl
  | succ fuel ih =>
    intro n acc h
    unfold decimalAux
    split
    · next hn => simp [parseDigits, digitChar_toNat hn]; omega
    · have hlt : n / 10 < 10 ^ fuel := by
        rw [Nat.div_lt_iff_lt_mul (by decide)]
        simpa [Nat.pow_succ] using h
      have hd : n % 10 < 10 := Nat.mod_lt _ (by decide)
      rw [ih _ _ hlt]
      simp only [parseDigits, digitChar_toNat hd]
      rw [if_pos (by omega)]
      congr 1
      omega

theorem lt_ten_pow_succ (n : Nat) : n < 10 ^ (n + 1) :=
  Nat.lt_of_lt_of_le (Nat.lt_pow_self (by decide)) (Nat.pow_le_pow_right (by decide) (Nat.le_succ n))

theorem parseDigits_decimal (n : Nat) : parseDigits 0 (decimal n) = some n := by
  rw [decimal, parseDigits_decimalAux _ _ _ (lt_ten_pow_succ n)]
  rfl

/-- A numeral is made of digits only. -/
theorem decimalAux_digits (fuel : Nat) : ∀ (n : Nat) (acc : List Char),
    (∀ c ∈ acc, 48 ≤ c.toNat ∧ c.toNat ≤ 57) → ∀ c ∈ decimalAux fuel n acc, 48 ≤ c.toNat ∧ c.toNat ≤ 57 := by
  induction fuel with
  | zero => intro n acc h c hc; exact h c hc
  | succ fuel ih =>
    intro n acc h c hc
    unfold decimalAux at hc
    split at hc
    · next hn =>
      rcases List.mem_cons.1 hc with rfl | hc
      · rw [digitChar_toNat hn]; omega
      · exact h c hc
    · refine ih _ _ ?_ c hc
      intro x hx
      have hd : n % 10 < 10 := Nat.mod_lt _ (by decide)
      rcases List.mem_cons.1 hx with rfl | hx
      · rw [digitChar_toNat hd]; omega
      · exact h x hx

theorem decimal_digits (n : Nat) : ∀ c ∈ decimal n, 48 ≤ c.toNat ∧ c.toNat ≤ 57 :=
  decimalAux_digits _ _ _ (by simp)

theorem decimalAux_ne_nil (fuel : Nat) : ∀ (n : Nat) (acc : List Char), acc ≠ [] ∨ fuel ≠ 0 → decimalAux fuel n acc ≠ [] := by
  induction fuel with
  | zero => intro n acc h; simpa [decimalAux] using h
  | succ fuel ih =>
    intro n acc _
    unfold decimalAux
    split
    · simp
    · exact ih _ _ (.inl (by simp))

theorem decimal_ne_nil (n : Nat) : decimal n ≠ [] := decimalAux_ne_nil _ _ _ (.inr (by omega))

end Sys2Proof
end

