-- ==== Sys2Proof/Laws/State.lean ====
section
/-! SUPPORT. One lemma for each field and each update of State. -/

namespace Sys2Proof.Machine

@[simp] theorem State.answer_calls (r : Result) (s : State) : (s.answer r).calls = s.calls := rfl
@[simp] theorem State.answer_results (r : Result) (s : State) : (s.answer r).results = s.results ++ [r] := rfl

@[simp] theorem State.reportFailure_eq_answer (k : Failure) (s : State) : s.reportFailure k = s.answer (.error k) := rfl

@[simp] theorem State.propagate_eq_answer (r : Result) (s : State) : s.propagate r = s.answer r := by
  cases r <;> rfl

@[simp] theorem State.withFetchWord_results (s : State) (n w : Nat) : (s.withFetchWord n w).results = s.results := rfl
@[simp] theorem State.withFetchWord_calls (s : State) (n w : Nat) :
    (s.withFetchWord n w).calls = callsOfWord n w ++ s.calls := rfl

@[simp] theorem State.reset_calls : State.reset.calls = [] := rfl
@[simp] theorem State.reset_results : State.reset.results = [] := rfl

theorem State.takeCall_cons {s : State} {c : Call} {rest : List Call} (h : s.calls = c :: rest) :
    s.takeCall = some (c, { s with calls := rest }) := by
  simp [State.takeCall, h]

theorem State.takeCall_nil {s : State} (h : s.calls = []) : s.takeCall = none := by
  simp [State.takeCall, h]

end Sys2Proof.Machine
end

