-- ==== Sys2Proof/Laws/Ops.lean ====
section
/-! SUPPORT. What each format encoder answers, said once: the word on register names, `UnknownRegister` otherwise; what a
request's meaning does; what one step does. -/

namespace Sys2Proof

/-! ### Format encoders -/

theorem Encoder.encR_names (e : Encoder) (m : RMnemonic) (rd rs1 rs2 : BitVec 5) :
    e.encR m (regName rd) (regName rs1) (regName rs2) =
      .ok (layoutR (e.metadataTable.rRow m).funct7 rs2 rs1 (e.metadataTable.rRow m).funct3 rd
        (e.metadataTable.rRow m).opcode) := by
  simp [Encoder.encR, regIdx_regName, bind, Except.bind, pure, Except.pure]

theorem Encoder.encR_unknown (e : Encoder) (m : RMnemonic) {a b c : RegName}
    (h : (∀ i, a ≠ regName i) ∨ (∀ i, b ≠ regName i) ∨ ∀ i, c ≠ regName i) :
    e.encR m a b c = .error .unknownRegister := by
  rcases regName_or_not a with ⟨i, rfl⟩ | ha
  · rcases regName_or_not b with ⟨j, rfl⟩ | hb
    · rcases h with h | h | h
      · exact absurd rfl (h i)
      · exact absurd rfl (h j)
      · simp [Encoder.encR, regIdx_regName, regIdx_of_not_name h, bind, Except.bind]
    · simp [Encoder.encR, regIdx_regName, regIdx_of_not_name hb, bind, Except.bind]
  · simp [Encoder.encR, regIdx_of_not_name ha, bind, Except.bind]

theorem Encoder.encI_names (e : Encoder) (m : IMnemonic) (rd rs1 : BitVec 5) (v : Int) :
    e.encI m (regName rd) (regName rs1) v =
      (sliceI v).map fun imm =>
        layoutI imm rs1 (e.metadataTable.iRow m).funct3 rd (e.metadataTable.iRow m).opcode := by
  simp only [Encoder.encI, regIdx_regName, bind, Except.bind, pure, Except.pure]
  cases sliceI v <;> rfl

theorem Encoder.encI_unknown (e : Encoder) (m : IMnemonic) {a b : RegName} (v : Int)
    (h : (∀ i, a ≠ regName i) ∨ ∀ i, b ≠ regName i) : e.encI m a b v = .error .unknownRegister := by
  rcases regName_or_not a with ⟨i, rfl⟩ | ha
  · rcases h with h | h
    · exact absurd rfl (h i)
    · simp [Encoder.encI, regIdx_regName, regIdx_of_not_name h, bind, Except.bind]
  · simp [Encoder.encI, regIdx_of_not_name ha, bind, Except.bind]

theorem Encoder.encB_names (e : Encoder) (m : BMnemonic) (rs1 rs2 : BitVec 5) (v : Int) :
    e.encB m (regName rs1) (regName rs2) v =
      (sliceB v).map fun i =>
        layoutB i rs2 rs1 (e.metadataTable.bRow m).funct3 (e.metadataTable.bRow m).opcode := by
  simp only [Encoder.encB, regIdx_regName, bind, Except.bind, pure, Except.pure]
  cases sliceB v <;> rfl

theorem Encoder.encB_unknown (e : Encoder) (m : BMnemonic) {a b : RegName} (v : Int)
    (h : (∀ i, a ≠ regName i) ∨ ∀ i, b ≠ regName i) : e.encB m a b v = .error .unknownRegister := by
  rcases regName_or_not a with ⟨i, rfl⟩ | ha
  · rcases h with h | h
    · exact absurd rfl (h i)
    · simp [Encoder.encB, regIdx_regName, regIdx_of_not_name h, bind, Except.bind]
  · simp [Encoder.encB, regIdx_of_not_name ha, bind, Except.bind]

theorem Encoder.encJ_name (e : Encoder) (rd : BitVec 5) (v : Int) :
    e.encJ (regName rd) v = (sliceJ v).map fun i => layoutJ e.jLayout i rd e.metadataTable.jal.opcode := by
  simp only [Encoder.encJ, regIdx_regName, bind, Except.bind, pure, Except.pure]
  cases sliceJ v <;> rfl

theorem Encoder.encJ_unknown (e : Encoder) {a : RegName} (v : Int) (h : ∀ i, a ≠ regName i) :
    e.encJ a v = .error .unknownRegister := by
  simp [Encoder.encJ, regIdx_of_not_name h, bind, Except.bind]

/-! ### The encode function, by family -/

theorem Encoder.encodeRequest_r (e : Encoder) (m : RMnemonic) (a b c : RegName) :
    e.encodeRequest (m.request a b c) = e.encR m a b c := by
  cases m <;> rfl

theorem Encoder.encodeRequest_i (e : Encoder) (m : IMnemonic) (a b : RegName) (v : Int) :
    e.encodeRequest (m.request a b v) = e.encI m a b v := by
  cases m <;> rfl

theorem Encoder.encodeRequest_b (e : Encoder) (m : BMnemonic) (a b : RegName) (v : Int) :
    e.encodeRequest (m.request a b v) = e.encB m a b v := by
  cases m <;> rfl

theorem Encoder.encodeRequest_unrouted (e : Encoder) (m : UMnemonic) :
    e.encodeRequest m.request = .error .unsupportedInstruction := by
  cases m <;> rfl

end Sys2Proof

namespace Sys2Proof.Machine

/-! ### Meanings, by family -/

/-- Everything a meaning can do: hand back the encode function's result on the request. -/
theorem exec_eq_answer (i : Instr) (s : State) : exec i s = .next (s.answer (Encoder.default.encodeRequest i)) := by
  cases i <;> exact congrArg Host.Outcome.next (State.propagate_eq_answer _ _)

theorem exec_r (m : RMnemonic) (a b c : RegName) (s : State) :
    exec (m.request a b c) s = .next (s.answer (Encoder.default.encR m a b c)) := by
  rw [exec_eq_answer, Encoder.encodeRequest_r]

theorem exec_i (m : IMnemonic) (a b : RegName) (v : Int) (s : State) :
    exec (m.request a b v) s = .next (s.answer (Encoder.default.encI m a b v)) := by
  rw [exec_eq_answer, Encoder.encodeRequest_i]

theorem exec_b (m : BMnemonic) (a b : RegName) (v : Int) (s : State) :
    exec (m.request a b v) s = .next (s.answer (Encoder.default.encB m a b v)) := by
  rw [exec_eq_answer, Encoder.encodeRequest_b]

theorem exec_jal (a : RegName) (v : Int) (s : State) :
    exec (.jal a v) s = .next (s.answer (Encoder.default.encJ a v)) :=
  exec_eq_answer _ s

theorem exec_unrouted (m : UMnemonic) (s : State) :
    exec m.request s = .next (s.answer (.error .unsupportedInstruction)) := by
  rw [exec_eq_answer, Encoder.encodeRequest_unrouted]

/-- Everything answering a call can do: hand back the encode function's result on the call. -/
theorem runCall_eq_answer (c : Call) (s : State) : runCall c s = .next (s.answer (Encoder.default.encodeCall c)) := by
  unfold runCall Encoder.encodeCall
  cases c.parse with
  | error k => rfl
  | ok i => exact exec_eq_answer i s

/-- A step with a call presented answers it. -/
theorem step_call {s : State} {c : Call} {rest : List Call} (h : s.calls = c :: rest) :
    step s = runCall c { s with calls := rest } := by
  simp [step, State.takeCall_cons h]

/-- Everything a step with a call presented can do: hand back the encode function's result on it. -/
theorem step_eq_answer {s : State} {c : Call} {rest : List Call} (h : s.calls = c :: rest) :
    step s = .next { s with calls := rest, results := s.results ++ [Encoder.default.encodeCall c] } := by
  rw [step_call h, runCall_eq_answer]
  rfl

/-- A step with no call presented changes nothing. -/
theorem step_idle {s : State} (h : s.calls = []) : step s = .next s := by
  simp [step, State.takeCall_nil h]

theorem run_succ_of_next {M : Host.Core} {s t : M.State} (h : M.step s = .next t) (n : Nat) :
    M.run (n + 1) s = M.run n t := by
  simp [Host.Core.run, h]

/-- A run whose first step answers a next state goes on from it. -/
theorem run_succ_of_step {s t : State} (h : step s = .next t) (n : Nat) :
    Sys2Proof.core.run (n + 1) s = Sys2Proof.core.run n t :=
  run_succ_of_next (M := Sys2Proof.core) h n

end Sys2Proof.Machine
end

