-- ==== Sys2Proof/Laws/Decode.lean ====
section
/-! SUPPORT. Bit fields as numbers: every layout's value, every field of a word read back, and the shift forms equal to the
compositions. -/

namespace Sys2Proof

/-! ### Concatenation, slices and disjoint ors as numbers -/

theorem toNat_append_eq_add {n m : Nat} (x : BitVec n) (y : BitVec m) :
    (x ++ y).toNat = x.toNat * 2 ^ m + y.toNat := by
  rw [BitVec.toNat_append, ← Nat.shiftLeft_add_eq_or_of_lt y.isLt, Nat.shiftLeft_eq]

theorem toNat_extractLsb_eq {n : Nat} (x : BitVec n) (hi lo : Nat) :
    (x.extractLsb hi lo).toNat = x.toNat / 2 ^ lo % 2 ^ (hi - lo + 1) := by
  simp [BitVec.extractLsb, Nat.shiftRight_eq_div_pow]

/-- An or whose right side lies below the multiple of `2^k` on its left is a sum. -/
theorem toNat_or_eq_add {a b : Word} {m n : Nat} (k : Nat) (ha : a.toNat = m) (hb : b.toNat = n) (hm : m % 2 ^ k = 0)
    (hn : n < 2 ^ k) : (a ||| b).toNat = m + n := by
  have h := Nat.shiftLeft_add_eq_or_of_lt hn (m / 2 ^ k)
  rw [Nat.shiftLeft_eq, Nat.div_mul_cancel (Nat.dvd_of_mod_eq_zero hm)] at h
  rw [BitVec.toNat_or, ha, hb, h]

theorem toNat_setWidth_shift {n : Nat} (x : BitVec n) (k : Nat) (h : n + k ≤ 32) :
    (x.setWidth 32 <<< k : Word).toNat = x.toNat * 2 ^ k := by
  have hx := x.isLt
  have h32 : 2 ^ n * 2 ^ k ≤ 2 ^ 32 := by
    rw [← Nat.pow_add]
    exact Nat.pow_le_pow_right (by decide) h
  have hlt : x.toNat * 2 ^ k < 2 ^ 32 := Nat.lt_of_lt_of_le (Nat.mul_lt_mul_of_pos_right hx (Nat.two_pow_pos k)) h32
  have hx32 : x.toNat < 2 ^ 32 := Nat.lt_of_lt_of_le hx (Nat.pow_le_pow_right (by decide) (by omega))
  rw [BitVec.toNat_shiftLeft, BitVec.toNat_setWidth, Nat.shiftLeft_eq, Nat.mod_eq_of_lt hx32, Nat.mod_eq_of_lt hlt]

theorem toNat_setWidth_word {n : Nat} (x : BitVec n) (h : n ≤ 32) : (x.setWidth 32 : Word).toNat = x.toNat := by
  rw [BitVec.toNat_setWidth, Nat.mod_eq_of_lt (Nat.lt_of_lt_of_le x.isLt (Nat.pow_le_pow_right (by decide) h))]

/-! ### The values of the four layouts -/

theorem layoutR_toNat (f7 : BitVec 7) (rs2 rs1 : BitVec 5) (f3 : BitVec 3) (rd : BitVec 5) (op : BitVec 7) :
    (layoutR f7 rs2 rs1 f3 rd op).toNat =
      f7.toNat * 2 ^ 25 + rs2.toNat * 2 ^ 20 + rs1.toNat * 2 ^ 15 + f3.toNat * 2 ^ 12 + rd.toNat * 2 ^ 7 + op.toNat := by
  have h : (f7 ++ rs2 ++ rs1 ++ f3 ++ rd ++ op).toNat =
      f7.toNat * 2 ^ 25 + rs2.toNat * 2 ^ 20 + rs1.toNat * 2 ^ 15 + f3.toNat * 2 ^ 12 + rd.toNat * 2 ^ 7 + op.toNat := by
    simp only [toNat_append_eq_add]
    omega
  exact h

theorem layoutI_toNat (imm : BitVec 12) (rs1 : BitVec 5) (f3 : BitVec 3) (rd : BitVec 5) (op : BitVec 7) :
    (layoutI imm rs1 f3 rd op).toNat =
      imm.toNat * 2 ^ 20 + rs1.toNat * 2 ^ 15 + f3.toNat * 2 ^ 12 + rd.toNat * 2 ^ 7 + op.toNat := by
  have h : (imm ++ rs1 ++ f3 ++ rd ++ op).toNat =
      imm.toNat * 2 ^ 20 + rs1.toNat * 2 ^ 15 + f3.toNat * 2 ^ 12 + rd.toNat * 2 ^ 7 + op.toNat := by
    simp only [toNat_append_eq_add]
    omega
  exact h

theorem layoutB_toNat (i : BitVec 13) (rs2 rs1 : BitVec 5) (f3 : BitVec 3) (op : BitVec 7) :
    (layoutB i rs2 rs1 f3 op).toNat =
      i.toNat / 2 ^ 12 * 2 ^ 31 + i.toNat / 2 ^ 5 % 2 ^ 6 * 2 ^ 25 + rs2.toNat * 2 ^ 20 + rs1.toNat * 2 ^ 15
        + f3.toNat * 2 ^ 12 + i.toNat / 2 % 2 ^ 4 * 2 ^ 8 + i.toNat / 2 ^ 11 % 2 * 2 ^ 7 + op.toNat := by
  have hi := i.isLt
  have h : (i.extractLsb 12 12 ++ i.extractLsb 10 5 ++ rs2 ++ rs1 ++ f3 ++ i.extractLsb 4 1 ++ i.extractLsb 11 11
      ++ op).toNat =
      i.toNat / 2 ^ 12 * 2 ^ 31 + i.toNat / 2 ^ 5 % 2 ^ 6 * 2 ^ 25 + rs2.toNat * 2 ^ 20 + rs1.toNat * 2 ^ 15
        + f3.toNat * 2 ^ 12 + i.toNat / 2 % 2 ^ 4 * 2 ^ 8 + i.toNat / 2 ^ 11 % 2 * 2 ^ 7 + op.toNat := by
    simp only [toNat_append_eq_add, toNat_extractLsb_eq]
    omega
  exact h

theorem layoutJ_doc_toNat (i : BitVec 21) (rd : BitVec 5) (op : BitVec 7) :
    (layoutJ .doc i rd op).toNat = i.toNat / 2 * 2 ^ 12 + rd.toNat * 2 ^ 7 + op.toNat := by
  have hi := i.isLt
  have h : (i.extractLsb 20 20 ++ i.extractLsb 19 12 ++ i.extractLsb 11 11 ++ i.extractLsb 10 1 ++ rd ++ op).toNat =
      i.toNat / 2 * 2 ^ 12 + rd.toNat * 2 ^ 7 + op.toNat := by
    simp only [toNat_append_eq_add, toNat_extractLsb_eq]
    omega
  exact h

theorem layoutJ_std_toNat (i : BitVec 21) (rd : BitVec 5) (op : BitVec 7) :
    (layoutJ .std i rd op).toNat =
      i.toNat / 2 ^ 20 * 2 ^ 31 + i.toNat / 2 % 2 ^ 10 * 2 ^ 21 + i.toNat / 2 ^ 11 % 2 * 2 ^ 20
        + i.toNat / 2 ^ 12 % 2 ^ 8 * 2 ^ 12 + rd.toNat * 2 ^ 7 + op.toNat := by
  have hi := i.isLt
  have h : (i.extractLsb 20 20 ++ i.extractLsb 10 1 ++ i.extractLsb 11 11 ++ i.extractLsb 19 12 ++ rd ++ op).toNat =
      i.toNat / 2 ^ 20 * 2 ^ 31 + i.toNat / 2 % 2 ^ 10 * 2 ^ 21 + i.toNat / 2 ^ 11 % 2 * 2 ^ 20
        + i.toNat / 2 ^ 12 % 2 ^ 8 * 2 ^ 12 + rd.toNat * 2 ^ 7 + op.toNat := by
    simp only [toNat_append_eq_add, toNat_extractLsb_eq]
    omega
  exact h

/-! ### The values of a word's fields -/

theorem opcodeOf_toNat (w : Word) : (opcodeOf w).toNat = w.toNat % 2 ^ 7 := by
  rw [opcodeOf, toNat_extractLsb_eq]; omega

theorem rdOf_toNat (w : Word) : (rdOf w).toNat = w.toNat / 2 ^ 7 % 2 ^ 5 := by
  rw [rdOf, toNat_extractLsb_eq]

theorem funct3Of_toNat (w : Word) : (funct3Of w).toNat = w.toNat / 2 ^ 12 % 2 ^ 3 := by
  rw [funct3Of, toNat_extractLsb_eq]

theorem rs1Of_toNat (w : Word) : (rs1Of w).toNat = w.toNat / 2 ^ 15 % 2 ^ 5 := by
  rw [rs1Of, toNat_extractLsb_eq]

theorem rs2Of_toNat (w : Word) : (rs2Of w).toNat = w.toNat / 2 ^ 20 % 2 ^ 5 := by
  rw [rs2Of, toNat_extractLsb_eq]

theorem funct7Of_toNat (w : Word) : (funct7Of w).toNat = w.toNat / 2 ^ 25 % 2 ^ 7 := by
  rw [funct7Of, toNat_extractLsb_eq]

/-! ### The shift forms are the compositions (30_encoding.md R55) -/

theorem regBits_regName (i : BitVec 5) : regBits (regName i) = i.setWidth 32 := by
  apply BitVec.eq_of_toNat_eq
  simp [regBits]

theorem shiftR_eq_layoutR (s : RSpec) (rd rs1 rs2 : BitVec 5) :
    shiftR s (regName rd) (regName rs1) (regName rs2) = layoutR s.funct7 rs2 rs1 s.funct3 rd s.opcode := by
  have h2 := rs2.isLt
  have h1 := rs1.isLt
  have h3 := s.funct3.isLt
  have hd := rd.isLt
  have ho := s.opcode.isLt
  apply BitVec.eq_of_toNat_eq
  rw [layoutR_toNat, shiftR, regBits_regName, regBits_regName, regBits_regName]
  have e1 := toNat_or_eq_add 25 (toNat_setWidth_shift s.funct7 25 (by decide)) (toNat_setWidth_shift rs2 20 (by decide))
    (by omega) (by omega)
  have e2 := toNat_or_eq_add 20 e1 (toNat_setWidth_shift rs1 15 (by decide)) (by omega) (by omega)
  have e3 := toNat_or_eq_add 15 e2 (toNat_setWidth_shift s.funct3 12 (by decide)) (by omega) (by omega)
  have e4 := toNat_or_eq_add 12 e3 (toNat_setWidth_shift rd 7 (by decide)) (by omega) (by omega)
  exact toNat_or_eq_add 7 e4 (toNat_setWidth_word s.opcode (by decide)) (by omega) (by omega)

theorem shiftI_eq_layoutI (s : FSpec) (rd rs1 : BitVec 5) (v : Int) :
    shiftI s (regName rd) (regName rs1) v = layoutI (tc 12 v) rs1 s.funct3 rd s.opcode := by
  have h1 := rs1.isLt
  have h3 := s.funct3.isLt
  have hd := rd.isLt
  have ho := s.opcode.isLt
  apply BitVec.eq_of_toNat_eq
  rw [layoutI_toNat, shiftI, regBits_regName, regBits_regName]
  have e1 := toNat_or_eq_add 20 (toNat_setWidth_shift (tc 12 v) 20 (by decide)) (toNat_setWidth_shift rs1 15 (by decide))
    (by omega) (by omega)
  have e2 := toNat_or_eq_add 15 e1 (toNat_setWidth_shift s.funct3 12 (by decide)) (by omega) (by omega)
  have e3 := toNat_or_eq_add 12 e2 (toNat_setWidth_shift rd 7 (by decide)) (by omega) (by omega)
  exact toNat_or_eq_add 7 e3 (toNat_setWidth_word s.opcode (by decide)) (by omega) (by omega)

/-- A slice of an offset, shifted into place. -/
theorem toNat_sliceBits_shift {n : Nat} (i : BitVec n) (hi lo k : Nat) (h : hi - lo + 1 + k ≤ 32) :
    (sliceBits i hi lo <<< k).toNat = i.toNat / 2 ^ lo % 2 ^ (hi - lo + 1) * 2 ^ k := by
  rw [sliceBits, toNat_setWidth_shift _ _ h, toNat_extractLsb_eq]

theorem shiftB_eq_layoutB (s : FSpec) (rs1 rs2 : BitVec 5) (v : Int) :
    shiftB s (regName rs1) (regName rs2) v = layoutB (tc 13 v) rs2 rs1 s.funct3 s.opcode := by
  have hi := (tc 13 v).isLt
  have h2 := rs2.isLt
  have h1 := rs1.isLt
  have h3 := s.funct3.isLt
  have ho := s.opcode.isLt
  apply BitVec.eq_of_toNat_eq
  simp only [layoutB_toNat, shiftB, regBits_regName]
  have e1 := toNat_or_eq_add 31 (toNat_sliceBits_shift (tc 13 v) 12 12 31 (by decide)) (toNat_sliceBits_shift (tc 13 v) 10 5 25 (by decide))
    (by omega) (by omega)
  have e2 := toNat_or_eq_add 25 e1 (toNat_setWidth_shift rs2 20 (by decide)) (by omega) (by omega)
  have e3 := toNat_or_eq_add 20 e2 (toNat_setWidth_shift rs1 15 (by decide)) (by omega) (by omega)
  have e4 := toNat_or_eq_add 15 e3 (toNat_setWidth_shift s.funct3 12 (by decide)) (by omega) (by omega)
  have e5 := toNat_or_eq_add 12 e4 (toNat_sliceBits_shift (tc 13 v) 4 1 8 (by decide)) (by omega) (by omega)
  have e6 := toNat_or_eq_add 8 e5 (toNat_sliceBits_shift (tc 13 v) 11 11 7 (by decide)) (by omega) (by omega)
  exact (toNat_or_eq_add 7 e6 (toNat_setWidth_word s.opcode (by decide)) (by omega) (by omega)).trans (by omega)

theorem shiftJ_eq_layoutJ (l : JLayout) (s : JSpec) (rd : BitVec 5) (v : Int) :
    shiftJ l s (regName rd) v = layoutJ l (tc 21 v) rd s.opcode := by
  have hi := (tc 21 v).isLt
  have hd := rd.isLt
  have ho := s.opcode.isLt
  apply BitVec.eq_of_toNat_eq
  cases l with
  | doc =>
    simp only [layoutJ_doc_toNat, shiftJ, regBits_regName]
    have e1 := toNat_or_eq_add 12 (toNat_sliceBits_shift (tc 21 v) 20 1 12 (by decide)) (toNat_setWidth_shift rd 7 (by decide))
      (by omega) (by omega)
    exact (toNat_or_eq_add 7 e1 (toNat_setWidth_word s.opcode (by decide)) (by omega) (by omega)).trans (by omega)
  | std =>
    simp only [layoutJ_std_toNat, shiftJ, regBits_regName]
    have e1 := toNat_or_eq_add 31 (toNat_sliceBits_shift (tc 21 v) 20 20 31 (by decide))
      (toNat_sliceBits_shift (tc 21 v) 10 1 21 (by decide)) (by omega) (by omega)
    have e2 := toNat_or_eq_add 21 e1 (toNat_sliceBits_shift (tc 21 v) 11 11 20 (by decide)) (by omega) (by omega)
    have e3 := toNat_or_eq_add 20 e2 (toNat_sliceBits_shift (tc 21 v) 19 12 12 (by decide)) (by omega) (by omega)
    have e4 := toNat_or_eq_add 12 e3 (toNat_setWidth_shift rd 7 (by decide)) (by omega) (by omega)
    exact (toNat_or_eq_add 7 e4 (toNat_setWidth_word s.opcode (by decide)) (by omega) (by omega)).trans (by omega)

/-! ### Fields of a composed word, read back -/

theorem layoutR_fields (f7 : BitVec 7) (rs2 rs1 : BitVec 5) (f3 : BitVec 3) (rd : BitVec 5) (op : BitVec 7) :
    funct7Of (layoutR f7 rs2 rs1 f3 rd op) = f7 ∧ rs2Of (layoutR f7 rs2 rs1 f3 rd op) = rs2
      ∧ rs1Of (layoutR f7 rs2 rs1 f3 rd op) = rs1 ∧ funct3Of (layoutR f7 rs2 rs1 f3 rd op) = f3
      ∧ rdOf (layoutR f7 rs2 rs1 f3 rd op) = rd ∧ opcodeOf (layoutR f7 rs2 rs1 f3 rd op) = op := by
  have h := layoutR_toNat f7 rs2 rs1 f3 rd op
  have := f7.isLt
  have := rs2.isLt
  have := rs1.isLt
  have := f3.isLt
  have := rd.isLt
  have := op.isLt
  refine ⟨?_, ?_, ?_, ?_, ?_, ?_⟩ <;> apply BitVec.eq_of_toNat_eq
  · rw [funct7Of_toNat]; omega
  · rw [rs2Of_toNat]; omega
  · rw [rs1Of_toNat]; omega
  · rw [funct3Of_toNat]; omega
  · rw [rdOf_toNat]; omega
  · rw [opcodeOf_toNat]; omega

theorem layoutI_fields (imm : BitVec 12) (rs1 : BitVec 5) (f3 : BitVec 3) (rd : BitVec 5) (op : BitVec 7) :
    (layoutI imm rs1 f3 rd op).extractLsb 31 20 = imm ∧ rs1Of (layoutI imm rs1 f3 rd op) = rs1
      ∧ funct3Of (layoutI imm rs1 f3 rd op) = f3 ∧ rdOf (layoutI imm rs1 f3 rd op) = rd
      ∧ opcodeOf (layoutI imm rs1 f3 rd op) = op := by
  have h := layoutI_toNat imm rs1 f3 rd op
  have := imm.isLt
  have := rs1.isLt
  have := f3.isLt
  have := rd.isLt
  have := op.isLt
  refine ⟨?_, ?_, ?_, ?_, ?_⟩ <;> apply BitVec.eq_of_toNat_eq
  · rw [toNat_extractLsb_eq]; omega
  · rw [rs1Of_toNat]; omega
  · rw [funct3Of_toNat]; omega
  · rw [rdOf_toNat]; omega
  · rw [opcodeOf_toNat]; omega

/-- An even 13-bit number from the four slices the branch layout carries. -/
theorem slices13 (u : Nat) (h : u < 2 ^ 13) (he : u % 2 = 0) :
    u / 2 ^ 12 % 2 ^ 1 * 2 ^ 12 + u / 2 ^ 11 % 2 ^ 1 * 2 ^ 11 + u / 2 ^ 5 % 2 ^ 6 * 2 ^ 5 + u / 2 % 2 ^ 4 * 2 = u := by
  omega

/-- An even 21-bit number from the four slices the jump layout carries. -/
theorem slices21 (u : Nat) (h : u < 2 ^ 21) (he : u % 2 = 0) :
    u / 2 ^ 20 % 2 ^ 1 * 2 ^ 20 + u / 2 ^ 12 % 2 ^ 8 * 2 ^ 12 + u / 2 ^ 11 % 2 ^ 1 * 2 ^ 11 + u / 2 % 2 ^ 10 * 2 = u := by
  omega

/-- The slices of a word that is a sum of fields in the places of the branch format. -/
theorem fields_b {w a c r2 r1 f d b o : Nat} (ha : a < 2) (hc : c < 64) (h2 : r2 < 32) (h1 : r1 < 32) (hf : f < 8)
    (hd : d < 16) (hb : b < 2) (ho : o < 128)
    (h : w = a * 2 ^ 31 + c * 2 ^ 25 + r2 * 2 ^ 20 + r1 * 2 ^ 15 + f * 2 ^ 12 + d * 2 ^ 8 + b * 2 ^ 7 + o) :
    w / 2 ^ 31 % 2 ^ 1 = a ∧ w / 2 ^ 25 % 2 ^ 6 = c ∧ w / 2 ^ 20 % 2 ^ 5 = r2 ∧ w / 2 ^ 15 % 2 ^ 5 = r1
      ∧ w / 2 ^ 12 % 2 ^ 3 = f ∧ w / 2 ^ 8 % 2 ^ 4 = d ∧ w / 2 ^ 7 % 2 ^ 1 = b ∧ w % 2 ^ 7 = o := by
  subst h
  refine ⟨?_, ?_, ?_, ?_, ?_, ?_, ?_, ?_⟩ <;> omega

/-- The slices of a word that is a sum of fields in the places of the standard jump format. -/
theorem fields_j {w a d c b r o : Nat} (ha : a < 2) (hd : d < 1024) (hc : c < 2) (hb : b < 256) (hr : r < 32)
    (ho : o < 128) (h : w = a * 2 ^ 31 + d * 2 ^ 21 + c * 2 ^ 20 + b * 2 ^ 12 + r * 2 ^ 7 + o) :
    w / 2 ^ 31 % 2 ^ 1 = a ∧ w / 2 ^ 21 % 2 ^ 10 = d ∧ w / 2 ^ 20 % 2 ^ 1 = c ∧ w / 2 ^ 12 % 2 ^ 8 = b
      ∧ w / 2 ^ 7 % 2 ^ 5 = r ∧ w % 2 ^ 7 = o := by
  subst h
  refine ⟨?_, ?_, ?_, ?_, ?_, ?_⟩ <;> omega

theorem layoutB_fields (i : BitVec 13) (rs2 rs1 : BitVec 5) (f3 : BitVec 3) (op : BitVec 7) (he : i.toNat % 2 = 0) :
    offBOf (layoutB i rs2 rs1 f3 op) = sext i ∧ rs2Of (layoutB i rs2 rs1 f3 op) = rs2
      ∧ rs1Of (layoutB i rs2 rs1 f3 op) = rs1 ∧ funct3Of (layoutB i rs2 rs1 f3 op) = f3
      ∧ opcodeOf (layoutB i rs2 rs1 f3 op) = op := by
  have hi := i.isLt
  obtain ⟨ha, hc, h2, h1, hf, hd, hb, ho⟩ := fields_b (by omega) (Nat.mod_lt _ (by decide)) rs2.isLt rs1.isLt f3.isLt
    (Nat.mod_lt _ (by decide)) (Nat.mod_lt _ (by decide)) op.isLt (layoutB_toNat i rs2 rs1 f3 op)
  generalize layoutB i rs2 rs1 f3 op = w at *
  refine ⟨congrArg sext (BitVec.eq_of_toNat_eq ?_), BitVec.eq_of_toNat_eq ((rs2Of_toNat w).trans h2),
    BitVec.eq_of_toNat_eq ((rs1Of_toNat w).trans h1), BitVec.eq_of_toNat_eq ((funct3Of_toNat w).trans hf),
    BitVec.eq_of_toNat_eq ((opcodeOf_toNat w).trans ho)⟩
  have e : (w.extractLsb 31 31 ++ w.extractLsb 7 7 ++ w.extractLsb 30 25 ++ w.extractLsb 11 8 ++ (0#1)).toNat =
      i.toNat := by
    rw [toNat_append_eq_add, toNat_append_eq_add, toNat_append_eq_add, toNat_append_eq_add, toNat_extractLsb_eq w 31 31,
      toNat_extractLsb_eq w 7 7, toNat_extractLsb_eq w 30 25, toNat_extractLsb_eq w 11 8, ha, hb, hc, hd]
    exact (by simp; omega : _ = _).trans (slices13 i.toNat hi he)
  exact e

theorem layoutJ_fields (l : JLayout) (i : BitVec 21) (rd : BitVec 5) (op : BitVec 7) (he : i.toNat % 2 = 0) :
    offJOf l (layoutJ l i rd op) = sext i ∧ rdOf (layoutJ l i rd op) = rd ∧ opcodeOf (layoutJ l i rd op) = op := by
  have hi := i.isLt
  cases l with
  | doc =>
    have h := layoutJ_doc_toNat i rd op
    have := rd.isLt
    have := op.isLt
    generalize layoutJ .doc i rd op = w at *
    have := w.isLt
    refine ⟨congrArg sext (BitVec.eq_of_toNat_eq ?_), BitVec.eq_of_toNat_eq ((rdOf_toNat w).trans (by omega)),
      BitVec.eq_of_toNat_eq ((opcodeOf_toNat w).trans (by omega))⟩
    have e : (w.extractLsb 31 12 ++ (0#1)).toNat = i.toNat := by
      rw [toNat_append_eq_add, toNat_extractLsb_eq w 31 12, show (0#1).toNat = 0 from rfl]
      omega
    exact e
  | std =>
    obtain ⟨ha, hd, hc, hb, hr, ho⟩ := fields_j (by omega) (Nat.mod_lt _ (by decide)) (Nat.mod_lt _ (by decide))
      (Nat.mod_lt _ (by decide)) rd.isLt op.isLt (layoutJ_std_toNat i rd op)
    generalize layoutJ .std i rd op = w at *
    refine ⟨congrArg sext (BitVec.eq_of_toNat_eq ?_), BitVec.eq_of_toNat_eq ((rdOf_toNat w).trans hr),
      BitVec.eq_of_toNat_eq ((opcodeOf_toNat w).trans ho)⟩
    have e : (w.extractLsb 31 31 ++ w.extractLsb 19 12 ++ w.extractLsb 20 20 ++ w.extractLsb 30 21 ++ (0#1)).toNat =
        i.toNat := by
      rw [toNat_append_eq_add, toNat_append_eq_add, toNat_append_eq_add, toNat_append_eq_add,
        toNat_extractLsb_eq w 31 31, toNat_extractLsb_eq w 19 12, toNat_extractLsb_eq w 20 20,
        toNat_extractLsb_eq w 30 21, ha, hb, hc, hd]
      exact (by simp; omega : _ = _).trans (slices21 i.toNat hi he)
    exact e

/-- The four slices of a branch offset put together and taken apart again. -/
theorem slices13_join {a b c d : Nat} (hb : b < 2) (hc : c < 64) (hd : d < 16) :
    (a * 2 ^ 12 + b * 2 ^ 11 + c * 2 ^ 5 + d * 2) / 2 ^ 12 = a
      ∧ (a * 2 ^ 12 + b * 2 ^ 11 + c * 2 ^ 5 + d * 2) / 2 ^ 11 % 2 = b
      ∧ (a * 2 ^ 12 + b * 2 ^ 11 + c * 2 ^ 5 + d * 2) / 2 ^ 5 % 2 ^ 6 = c
      ∧ (a * 2 ^ 12 + b * 2 ^ 11 + c * 2 ^ 5 + d * 2) / 2 % 2 ^ 4 = d := by
  refine ⟨?_, ?_, ?_, ?_⟩ <;> omega

/-- The four slices of a jump offset put together and taken apart again. -/
theorem slices21_join {a b c d : Nat} (hb : b < 256) (hc : c < 2) (hd : d < 1024) :
    (a * 2 ^ 20 + b * 2 ^ 12 + c * 2 ^ 11 + d * 2) / 2 ^ 20 = a
      ∧ (a * 2 ^ 20 + b * 2 ^ 12 + c * 2 ^ 11 + d * 2) / 2 ^ 12 % 2 ^ 8 = b
      ∧ (a * 2 ^ 20 + b * 2 ^ 12 + c * 2 ^ 11 + d * 2) / 2 ^ 11 % 2 = c
      ∧ (a * 2 ^ 20 + b * 2 ^ 12 + c * 2 ^ 11 + d * 2) / 2 % 2 ^ 10 = d := by
  refine ⟨?_, ?_, ?_, ?_⟩ <;> omega

/-- An offset read with a low bit 0 is even. -/
theorem sext_append_zero_even {n : Nat} (x : BitVec n) : sext (x ++ 0#1) % 2 = 0 := by
  have h := tc_toNat (n + 1) (sext (x ++ 0#1))
  have hs : tc (n + 1) (sext (x ++ 0#1)) = x ++ 0#1 := BitVec.ofInt_toInt
  rw [hs, toNat_append_eq_add, show (0#1).toNat = 0 from rfl, show (2 : Int) ^ (n + 1) = 2 * 2 ^ n by rw [Int.pow_succ]; omega] at h
  have h2 := Int.mul_ediv_add_emod (sext (x ++ 0#1)) (2 * 2 ^ n)
  have h3 : (2 : Int) ∣ 2 * 2 ^ n * (sext (x ++ 0#1) / (2 * 2 ^ n)) := by
    rw [Int.mul_assoc]
    exact ⟨_, rfl⟩
  omega

/-! ### The decoder's choice of a row -/

theorem find_unique {α : Type} {l : List α} {p : α → Bool} {a : α} (hm : a ∈ l) (hp : p a = true)
    (hu : ∀ b ∈ l, p b = true → b = a) : l.find? p = some a := by
  induction l with
  | nil => cases hm
  | cons b l ih =>
    rw [List.find?_cons]
    cases hb : p b with
    | true => simp [hu b (by simp) hb]
    | false =>
      rcases List.mem_cons.1 hm with rfl | hm
      · simp [hp] at hb
      · exact ih hm fun c hc => hu c (by simp [hc])

/-- Under separated rows a word matches one encodable mnemonic's row at most. -/
theorem matchesWord_unique {t : MetaTable} (h : t.Separated) {m n : Mnemonic} (hm : m ∈ Mnemonic.encodable)
    (hn : n ∈ Mnemonic.encodable) {w : Word} (h1 : (t.lookup m).matchesWord w = true)
    (h2 : (t.lookup n).matchesWord w = true) : n = m := by
  by_contra hne
  have h := h m hm n hn (Ne.symm hne)
  split at h
  · next hf =>
    apply h
    rcases m with m | m | m | _ | m <;> rcases n with n | n | n | _ | n <;> simp [Mnemonic.sameFamily] at hf <;>
      simp [MetaTable.lookup, RSpec.view, FSpec.view, JSpec.view, InstructionSpec.matchesWord] at h1 h2 ⊢ <;> simp_all
  · apply h
    simp [InstructionSpec.matchesWord] at h1 h2
    rw [h1.1.1, h2.1.1]

theorem decode_of_matches {e : Encoder} (h : e.metadataTable.Separated) {m : Mnemonic} (hm : m ∈ Mnemonic.encodable)
    {w : Word} (h1 : (e.metadataTable.lookup m).matchesWord w = true) : decode e w = .ok (operandsOf e.jLayout w m) := by
  have hf : Mnemonic.all.find? (fun m => (e.metadataTable.lookup m).matchesWord w) = some m := by
    have hs : Mnemonic.all = Mnemonic.encodable ++ Mnemonic.all.drop 15 := by decide
    rw [hs, List.find?_append, find_unique hm h1 fun n hn h2 => matchesWord_unique h hm hn h1 h2]
    rfl
  rw [decode, hf]

/-- What a decoded word says of its row. -/
theorem decode_ok {e : Encoder} {w : Word} {i : Instr} (h : decode e w = .ok i) :
    ∃ m : Mnemonic, (e.metadataTable.lookup m).matchesWord w = true ∧ i = operandsOf e.jLayout w m := by
  unfold decode at h
  split at h
  · next m hm =>
    injection h with h
    exact ⟨m, List.find?_some (p := fun m => (e.metadataTable.lookup m).matchesWord w) hm, h.symm⟩
  · split at h <;> cases h

@[simp] theorem operandsOf_mnemonic (l : JLayout) (w : Word) (m : Mnemonic) : (operandsOf l w m).mnemonic = m := by
  cases m with
  | r m => exact m.request_mnemonic _ _ _
  | i m => exact m.request_mnemonic _ _ _
  | b m => exact m.request_mnemonic _ _ _
  | jal => rfl
  | unrouted m => exact m.request_mnemonic

/-! ### Shift words by family -/

theorem shiftWord_r (e : Encoder) (m : RMnemonic) (a b c : RegName) :
    shiftWord e (m.request a b c) = shiftR (e.metadataTable.rRow m) a b c := by
  cases m <;> rfl

theorem shiftWord_i (e : Encoder) (m : IMnemonic) (a b : RegName) (v : Int) :
    shiftWord e (m.request a b v) = shiftI (e.metadataTable.iRow m) a b v := by
  cases m <;> rfl

theorem shiftWord_b (e : Encoder) (m : BMnemonic) (a b : RegName) (v : Int) :
    shiftWord e (m.request a b v) = shiftB (e.metadataTable.bRow m) a b v := by
  cases m <;> rfl

theorem encode_eq_some {e : Encoder} {i : Instr} {w : Word} :
    encode e i = some w ↔ i.wellFormed = true ∧ shiftWord e i = w := by
  unfold encode
  split <;> simp_all

end Sys2Proof
end

