-- ==== Sys2Proof/Laws/PerInstr.lean ====
section
/-! SUPPORT. Laws made one instruction at a time: the word of a request carries the fields of its mnemonic's metadata row. -/

namespace Sys2Proof.Laws

/-- A request's word has its row's opcode, and its funct3 and funct7 where the row has them (30_encoding.md R51 to R54). -/
def RowInWord.Statement (i : Instr) : Prop :=
  ∀ (e : Encoder) (w : Word), encode e i = some w → (e.metadataTable.lookup i.mnemonic).matchesWord w = true

theorem rowInWord_r (m : RMnemonic) (a b c : RegName) : RowInWord.Statement (m.request a b c) := by
  intro e w h
  obtain ⟨hwf, hw⟩ := encode_eq_some.1 h
  simp only [RMnemonic.request_wellFormed, Bool.and_eq_true, isRegName_iff] at hwf
  obtain ⟨⟨⟨rd, rfl⟩, rs1, rfl⟩, rs2, rfl⟩ := hwf
  rw [shiftWord_r, shiftR_eq_layoutR] at hw
  obtain ⟨h7, -, -, h3, -, ho⟩ := layoutR_fields (e.metadataTable.rRow m).funct7 rs2 rs1 (e.metadataTable.rRow m).funct3 rd
    (e.metadataTable.rRow m).opcode
  rw [hw] at h7 h3 ho
  simp [MetaTable.lookup, RSpec.view, InstructionSpec.matchesWord, h7, h3, ho]

theorem rowInWord_i (m : IMnemonic) (a b : RegName) (v : Int) : RowInWord.Statement (m.request a b v) := by
  intro e w h
  obtain ⟨hwf, hw⟩ := encode_eq_some.1 h
  simp only [IMnemonic.request_wellFormed, Bool.and_eq_true, isRegName_iff] at hwf
  obtain ⟨⟨⟨rd, rfl⟩, rs1, rfl⟩, -⟩ := hwf
  rw [shiftWord_i, shiftI_eq_layoutI] at hw
  obtain ⟨-, -, h3, -, ho⟩ := layoutI_fields (tc 12 v) rs1 (e.metadataTable.iRow m).funct3 rd (e.metadataTable.iRow m).opcode
  rw [hw] at h3 ho
  simp [MetaTable.lookup, FSpec.view, InstructionSpec.matchesWord, h3, ho]

theorem rowInWord_b (m : BMnemonic) (a b : RegName) (v : Int) : RowInWord.Statement (m.request a b v) := by
  intro e w h
  obtain ⟨hwf, hw⟩ := encode_eq_some.1 h
  simp only [BMnemonic.request_wellFormed, Bool.and_eq_true, isRegName_iff, isOffB, decide_eq_true_eq] at hwf
  obtain ⟨⟨⟨rs1, rfl⟩, rs2, rfl⟩, -, hv⟩ := hwf
  rw [shiftWord_b, shiftB_eq_layoutB] at hw
  have ht := tc_toNat 13 v
  obtain ⟨-, -, -, h3, ho⟩ := layoutB_fields (tc 13 v) rs2 rs1 (e.metadataTable.bRow m).funct3 (e.metadataTable.bRow m).opcode
    (by omega)
  rw [hw] at h3 ho
  simp [MetaTable.lookup, FSpec.view, InstructionSpec.matchesWord, h3, ho]

theorem rowInWord_u (m : UMnemonic) : RowInWord.Statement m.request := by
  intro e w h
  simp [encode] at h

namespace RowInWord

theorem add (rd rs1 rs2 : RegName) : Statement (.add rd rs1 rs2) := rowInWord_r .add rd rs1 rs2
theorem sub (rd rs1 rs2 : RegName) : Statement (.sub rd rs1 rs2) := rowInWord_r .sub rd rs1 rs2
theorem and (rd rs1 rs2 : RegName) : Statement (.and rd rs1 rs2) := rowInWord_r .and rd rs1 rs2
theorem or (rd rs1 rs2 : RegName) : Statement (.or rd rs1 rs2) := rowInWord_r .or rd rs1 rs2
theorem xor (rd rs1 rs2 : RegName) : Statement (.xor rd rs1 rs2) := rowInWord_r .xor rd rs1 rs2
theorem addi (rd rs1 : RegName) (imm : Int) : Statement (.addi rd rs1 imm) := rowInWord_i .addi rd rs1 imm
theorem andi (rd rs1 : RegName) (imm : Int) : Statement (.andi rd rs1 imm) := rowInWord_i .andi rd rs1 imm
theorem ori (rd rs1 : RegName) (imm : Int) : Statement (.ori rd rs1 imm) := rowInWord_i .ori rd rs1 imm
theorem xori (rd rs1 : RegName) (imm : Int) : Statement (.xori rd rs1 imm) := rowInWord_i .xori rd rs1 imm
theorem jalr (rd rs1 : RegName) (imm : Int) : Statement (.jalr rd rs1 imm) := rowInWord_i .jalr rd rs1 imm
theorem beq (rs1 rs2 : RegName) (off : Int) : Statement (.beq rs1 rs2 off) := rowInWord_b .beq rs1 rs2 off
theorem bne (rs1 rs2 : RegName) (off : Int) : Statement (.bne rs1 rs2 off) := rowInWord_b .bne rs1 rs2 off
theorem blt (rs1 rs2 : RegName) (off : Int) : Statement (.blt rs1 rs2 off) := rowInWord_b .blt rs1 rs2 off
theorem bge (rs1 rs2 : RegName) (off : Int) : Statement (.bge rs1 rs2 off) := rowInWord_b .bge rs1 rs2 off

theorem jal (rd : RegName) (off : Int) : Statement (.jal rd off) := by
  intro e w h
  obtain ⟨hwf, hw⟩ := encode_eq_some.1 h
  simp only [Instr.wellFormed, Bool.and_eq_true, isRegName_iff, isOffJ, decide_eq_true_eq] at hwf
  obtain ⟨⟨i, rfl⟩, -, hv⟩ := hwf
  have hw : shiftJ e.jLayout e.metadataTable.jal (regName i) off = w := hw
  rw [shiftJ_eq_layoutJ] at hw
  have ht := tc_toNat 21 off
  have ho := (layoutJ_fields e.jLayout (tc 21 off) i e.metadataTable.jal.opcode (by omega)).2.2
  rw [hw] at ho
  simp [MetaTable.lookup, Instr.mnemonic, JSpec.view, InstructionSpec.matchesWord, ho]

theorem lw : Statement .lw := rowInWord_u .lw
theorem sw : Statement .sw := rowInWord_u .sw
theorem lb : Statement .lb := rowInWord_u .lb
theorem sb : Statement .sb := rowInWord_u .sb

end RowInWord

end Sys2Proof.Laws
end

