-- ==== Sys2Proof/Tests/Slice0.lean ====
section
/-! SUPPORT. The model's own tests. Expected results are those of spec/95_test_vectors.md (sections named at each group) or the
bits of the encodings of 30_encoding.md written out by hand. -/

open Sys2Proof Sys2Proof.Machine

namespace Sys2Proof.Tests

/-- The reset state with one line presented. -/
def lineState (text : String) : State := { State.reset with calls := [.line text.toList] }

/-- The encode function on a line under the other jump layout. -/
def encodeStd (text : String) : Result := { Encoder.default with jLayout := .std }.encodeCall (.line text.toList)

/-- What one step hands back. -/
def answerOf (s : State) : Option Result :=
  match step s with
  | .next t => t.results.getLast?
  | .fault _ => none
  | .refused _ => none

/-- What one step hands back for a line. -/
def answerTo (text : String) : Option Result := answerOf (lineState text)

/-! ### The check: a term for each way it refuses -/

theorem test_wellFormed_add : (Instr.add "x0".toList "x15".toList "x31".toList).wellFormed = true := by decide
theorem test_illFormed_add_rd : (Instr.add "x32".toList "x0".toList "x0".toList).wellFormed = false := by decide
theorem test_illFormed_sub_rs1 : (Instr.sub "x0".toList "X1".toList "x0".toList).wellFormed = false := by decide
theorem test_illFormed_xor_rs2 : (Instr.xor "x0".toList "x0".toList "x01".toList).wellFormed = false := by decide
theorem test_illFormed_addi_name : (Instr.addi "".toList "x0".toList 0).wellFormed = false := by decide
theorem test_immI_bounds :
    [-2049, -2048, 2047, 2048].map (fun v => (Instr.addi "x1".toList "x1".toList v).wellFormed) =
      [false, true, true, false] := by decide
theorem test_offB_bounds :
    [-4098, -4096, -4095, 4094, 4095, 4096].map (fun v => (Instr.beq "x1".toList "x2".toList v).wellFormed) =
      [false, true, false, true, false, false] := by decide
theorem test_offJ_bounds :
    [-1048578, -1048576, -1048575, 1048574, 1048575, 1048576].map (fun v => (Instr.jal "x1".toList v).wellFormed) =
      [false, true, false, true, false, false] := by decide
theorem test_illFormed_beq_name : (Instr.beq "x1".toList "x99".toList 0).wellFormed = false := by decide
theorem test_illFormed_jal_name : (Instr.jal "ra".toList 0).wellFormed = false := by decide
theorem test_illFormed_unrouted : [Instr.lw, .sw, .lb, .sb].map Instr.wellFormed = [false, false, false, false] := by decide

/-! ### Decoding: one word for each constructor, its fields written out in the order of R51 to R54 -/

theorem test_decode_add : decodeTableWord 32 (0b0000000#7 ++ 0b00011#5 ++ 0b00010#5 ++ 0b000#3 ++ 0b00001#5 ++ 0b0110011#7 : Word).toNat =
    some (.add "x1".toList "x2".toList "x3".toList) := by decide
theorem test_decode_sub : decodeTableWord 32 (0b0100000#7 ++ 0b01100#5 ++ 0b01011#5 ++ 0b000#3 ++ 0b01010#5 ++ 0b0110011#7 : Word).toNat =
    some (.sub "x10".toList "x11".toList "x12".toList) := by decide
theorem test_decode_and : decodeTableWord 32 (0b0000000#7 ++ 0b00111#5 ++ 0b00110#5 ++ 0b111#3 ++ 0b00101#5 ++ 0b0110011#7 : Word).toNat =
    some (.and "x5".toList "x6".toList "x7".toList) := by decide
theorem test_decode_or : decodeTableWord 32 (0b0000000#7 ++ 0b01010#5 ++ 0b01001#5 ++ 0b110#3 ++ 0b01000#5 ++ 0b0110011#7 : Word).toNat =
    some (.or "x8".toList "x9".toList "x10".toList) := by decide
theorem test_decode_xor : decodeTableWord 32 (0b0000000#7 ++ 0b11110#5 ++ 0b11101#5 ++ 0b100#3 ++ 0b11100#5 ++ 0b0110011#7 : Word).toNat =
    some (.xor "x28".toList "x29".toList "x30".toList) := by decide
theorem test_decode_addi : decodeTableWord 32 (0b111111111111#12 ++ 0b00110#5 ++ 0b000#3 ++ 0b00101#5 ++ 0b0010011#7 : Word).toNat =
    some (.addi "x5".toList "x6".toList (-1)) := by decide
theorem test_decode_andi : decodeTableWord 32 (0b111100000000#12 ++ 0b00110#5 ++ 0b111#3 ++ 0b00101#5 ++ 0b0010011#7 : Word).toNat =
    some (.andi "x5".toList "x6".toList (-256)) := by decide
theorem test_decode_ori : decodeTableWord 32 (0b100000000000#12 ++ 0b00111#5 ++ 0b110#3 ++ 0b00111#5 ++ 0b0010011#7 : Word).toNat =
    some (.ori "x7".toList "x7".toList (-2048)) := by decide
theorem test_decode_xori : decodeTableWord 32 (0b010101010101#12 ++ 0b01000#5 ++ 0b100#3 ++ 0b01001#5 ++ 0b0010011#7 : Word).toNat =
    some (.xori "x9".toList "x8".toList 1365) := by decide
theorem test_decode_jalr : decodeTableWord 32 (0b100000000000#12 ++ 0b00101#5 ++ 0b000#3 ++ 0b00001#5 ++ 0b1100111#7 : Word).toNat =
    some (.jalr "x1".toList "x5".toList (-2048)) := by decide
theorem test_decode_beq : decodeTableWord 32 (0b1#1 ++ 0b111111#6 ++ 0b00010#5 ++ 0b00001#5 ++ 0b000#3 ++ 0b1110#4 ++ 0b1#1 ++ 0b1100011#7 : Word).toNat =
    some (.beq "x1".toList "x2".toList (-4)) := by decide
theorem test_decode_bne : decodeTableWord 32 (0b0#1 ++ 0b111111#6 ++ 0b01011#5 ++ 0b01010#5 ++ 0b001#3 ++ 0b1111#4 ++ 0b0#1 ++ 0b1100011#7 : Word).toNat =
    some (.bne "x10".toList "x11".toList 2046) := by decide
theorem test_decode_blt : decodeTableWord 32 (0b1#1 ++ 0b000000#6 ++ 0b00100#5 ++ 0b00011#5 ++ 0b100#3 ++ 0b0000#4 ++ 0b0#1 ++ 0b1100011#7 : Word).toNat =
    some (.blt "x3".toList "x4".toList (-4096)) := by decide
theorem test_decode_bge : decodeTableWord 32 (0b0#1 ++ 0b000000#6 ++ 0b00010#5 ++ 0b00001#5 ++ 0b101#3 ++ 0b0000#4 ++ 0b1#1 ++ 0b1100011#7 : Word).toNat =
    some (.bge "x1".toList "x2".toList 2048) := by decide
theorem test_decode_jal : decodeTableWord 32 (0b1#1 ++ 0b11111111#8 ++ 0b1#1 ++ 0b1111111010#10 ++ 0b00000#5 ++ 0b1101111#7 : Word).toNat =
    some (.jal "x0".toList (-12)) := by decide
theorem test_decode_jal_std :
    decode { Encoder.default with jLayout := .std }
        (0b1#1 ++ 0b1111111010#10 ++ 0b1#1 ++ 0b11111111#8 ++ 0b00000#5 ++ 0b1101111#7 : Word) =
      .ok (.jal "x0".toList (-12)) := by decide

/-- The identification patterns of opcode_table.json, whatever the other bits (log 8). -/
theorem test_decode_unrouted :
    [0x00002003, 0x00002023, 0x00000003, 0x00000023, 0xFFFFAF83].map (decodeTableWord 32) =
      [some .lw, some .sw, some .lb, some .sb, some .lw] := by decide

theorem test_decode_rejects :
    decode Encoder.default 0x00000000 = .error .opcodeNotInTable
      ∧ decode Encoder.default 0x00002033 = .error .functNotInTable
      ∧ decode Encoder.default 0x02000033 = .error .functNotInTable
      ∧ decode Encoder.default 0x00002063 = .error .functNotInTable := by decide

/-- A table word with fewer bits than 32: the bits above them are 0. -/
theorem test_decode_short : decodeTableWord 8 0xFFFFFF6F = some (.jal "x0".toList 0) := by decide

/-! ### The encode direction: the shift forms -/

theorem test_encode_add : encode Encoder.default (.add "x1".toList "x2".toList "x3".toList) = some 0x003100B3 := by decide
theorem test_encode_beq : encode Encoder.default (.beq "x1".toList "x2".toList 2048) = some 0x002080E3 := by decide
theorem test_encode_jal : encode Encoder.default (.jal "x5".toList 1044480) = some 0x7F8002EF := by decide
theorem test_encode_none : encode Encoder.default .lw = none := by decide

/-! ### One step on one line, each instruction (95, sections 3 to 7) -/

theorem test_step_add : answerTo "add x10, x20, x30" = some (.ok 0x01EA0533) := by decide
theorem test_step_add_unknownRegister : answerTo "add x1, x2, x32" = some (.error .unknownRegister) := by decide
theorem test_step_sub : answerTo "sub x5, x0, x5" = some (.ok 0x405002B3) := by decide
theorem test_step_sub_unknownRegister : answerTo "sub x1, x2, 5" = some (.error .unknownRegister) := by decide
theorem test_step_and : answerTo "and x15, x16, x17" = some (.ok 0x011877B3) := by decide
theorem test_step_and_unknownRegister : answerTo "and zero, x1, x2" = some (.error .unknownRegister) := by decide
theorem test_step_or : answerTo "or x17, x0, x17" = some (.ok 0x011068B3) := by decide
theorem test_step_or_operandArityMismatch : answerTo "or x1, x2" = some (.error .operandArityMismatch) := by decide
theorem test_step_xor : answerTo "xor x28, x29, x30" = some (.ok 0x01EECE33) := by decide
theorem test_step_xor_operandArityMismatch : answerTo "xor x1, x2, x3, x4" = some (.error .operandArityMismatch) := by decide
theorem test_step_addi : answerTo "addi x31, x31, -2048" = some (.ok 0x800F8F93) := by decide
theorem test_step_addi_immediateOverflow : answerTo "addi x1, x1, 2048" = some (.error .immediateOverflow) := by decide
theorem test_step_andi : answerTo "andi x5, x6, 255" = some (.ok 0x0FF37293) := by decide
theorem test_step_andi_immediateOverflow : answerTo "andi x5, x6, 4095" = some (.error .immediateOverflow) := by decide
theorem test_step_ori : answerTo "ori x1, x1, 2047" = some (.ok 0x7FF0E093) := by decide
theorem test_step_ori_immediateOverflow : answerTo "ori x1, x1, -2049" = some (.error .immediateOverflow) := by decide
theorem test_step_xori : answerTo "xori x9, x8, -1366" = some (.ok 0xAAA44493) := by decide
theorem test_step_xori_immediateOverflow : answerTo "xori x1, x2, 2048" = some (.error .immediateOverflow) := by decide
theorem test_step_jalr : answerTo "jalr x1, x5, 7" = some (.ok 0x007280E7) := by decide
theorem test_step_jalr_operandArityMismatch : answerTo "jalr x1, 0(x2)" = some (.error .operandArityMismatch) := by decide
theorem test_step_beq : answerTo "beq x1, x2, 4094" = some (.ok 0x7E208FE3) := by decide
theorem test_step_beq_offsetOutOfRange : answerTo "beq x1, x2, 4097" = some (.error .offsetOutOfRange) := by decide
theorem test_step_bne : answerTo "bne x5, x0, -8" = some (.ok 0xFE029CE3) := by decide
theorem test_step_bne_offsetMisaligned : answerTo "bne x10, x11, 3" = some (.error .offsetMisaligned) := by decide
theorem test_step_blt : answerTo "blt x3, x4, -4096" = some (.ok 0x8041C063) := by decide
theorem test_step_blt_offsetOutOfRange : answerTo "blt x3, x4, 5000" = some (.error .offsetOutOfRange) := by decide
theorem test_step_bge : answerTo "bge x31, x30, 4094" = some (.ok 0x7FEFDFE3) := by decide
theorem test_step_bge_unknownRegister : answerTo "bge x1, x33, 8" = some (.error .unknownRegister) := by decide
theorem test_step_jal : answerTo "jal x5, 1044480" = some (.ok 0x7F8002EF) := by decide
theorem test_step_jal_unknownRegister : answerTo "jal x99, 3" = some (.error .unknownRegister) := by decide
theorem test_step_lw_unsupportedInstruction : answerTo "lw x1, 0(x2)" = some (.error .unsupportedInstruction) := by decide
theorem test_step_sw_unsupportedInstruction : answerTo "sw x1, 0(x2)" = some (.error .unsupportedInstruction) := by decide
theorem test_step_lb_unsupportedInstruction : answerTo "lb x1, 4(x2)" = some (.error .unsupportedInstruction) := by decide
theorem test_step_sb_unsupportedInstruction : answerTo "sb x1, -4(x2)" = some (.error .unsupportedInstruction) := by decide
theorem test_step_jal_std :
    encodeStd "jal x1, 1048575" = .error .offsetMisaligned
      ∧ encodeStd "jal x5, 4094" = .ok 0x7FF002EF := by decide

/-! ### The front end (95, section 7) -/

theorem test_front_white :
    answerTo "add\r\nx1,\x0Bx2,\x0Cx3\r\n" = some (.ok 0x003100B3)
      ∧ answerTo "add x1,,, x2,, x3,," = some (.ok 0x003100B3)
      ∧ answerTo "add x1,x2,x3" = some (.error .operandArityMismatch)
      ∧ answerTo "add\u00A0x1, x2, x3" = some (.error .unsupportedInstruction) := by decide
theorem test_front_immediate :
    answerTo "addi x1, x2, -0002048" = some (.ok 0x80010093)
      ∧ answerTo "addi x1, x2, +5" = some (.ok 0x00510093)
      ∧ answerTo "addi x1, x2, 5," = some (.error .invalidImmediateSyntax)
      ∧ answerTo "addi x99, x2, abc" = some (.error .invalidImmediateSyntax)
      ∧ answerTo "addi x1, x2, 4294967296" = some (.error .immediateOverflow) := by decide
theorem test_front_mnemonic :
    answerTo "" = some (.error .unsupportedInstruction)
      ∧ answerTo "ADD x1, x2, x3" = some (.error .unsupportedInstruction)
      ∧ answerTo "add, x1, x2, x3" = some (.error .unsupportedInstruction)
      ∧ answerTo "mul x99" = some (.error .unsupportedInstruction) := by decide
theorem test_front_register :
    answerTo "add , x2, x3" = some (.error .unknownRegister)
      ∧ answerTo "addi x99, x2, 5000" = some (.error .unknownRegister) := by decide

/-! ### The host interface -/

/-- A table word is presented and run as the first call after reset (log 7). -/
theorem test_withFetchWord :
    answerOf (State.reset.withFetchWord 32 0x40C58533) = some (.ok 0x40C58533)
      ∧ answerOf (State.reset.withFetchWord 32 0x0000006F) = some (.ok 0x0000006F)
      ∧ answerOf (State.reset.withFetchWord 32 0x00002003) = some (.error .unsupportedInstruction) := by decide
theorem test_port :
    answerOf { State.reset with calls := [.port 1 "x5".toList "x0".toList "x5".toList 7] } = some (.ok 0x405002B3)
      ∧ answerOf { State.reset with calls := [.port 15 [] [] [] 0] } = some (.error .unsupportedInstruction) := by decide
theorem test_request :
    answerOf { State.reset with calls := [.request (.i .jalr "x0".toList "x1".toList 0)] } = some (.ok 0x00008067) := by decide
theorem test_wordString :
    wordString 0x003100B3 = "00000000001100010000000010110011".toList := by decide
theorem test_idle : step State.reset = .next State.reset := rfl

/-! ### Witnesses: a state and operands that meet each statement's hypotheses, clause by clause -/

/-- Names inside and just outside the Register Table, and the parameters of the machine. For RequestFailuresAndTheirCauses and the
other statements over register names. -/
theorem witness_registers :
    Encoder.default = ⟨metadataRom, .doc⟩
      ∧ "x0".toList = regName 0 ∧ "x31".toList = regName 31
      ∧ (∀ r : BitVec 5, "x32".toList ≠ regName r) ∧ ∀ r : BitVec 5, [] ≠ regName r := by decide
/-- MetadataLookupIsExact: a name found, a name not found. -/
theorem witness_metadata :
    Encoder.default.metaOf "jal".toList = .ok ⟨0b1101111, none, none⟩
      ∧ Encoder.default.metaOf "sb".toList = .ok ⟨0b0100011, some 0b000, none⟩
      ∧ Encoder.default.metaOf "Jal".toList = .error .unsupportedInstruction := by decide
/-- TwosComplementBits and SignExtensionInvertsTwosComplement: both ends of two intervals, width 1 among them. -/
theorem witness_tc :
    inTcRange 1 (-1) = true ∧ inTcRange 1 0 = true ∧ inTcRange 1 1 = false
      ∧ inTcRange 12 (-2048) = true ∧ inTcRange 12 2047 = true ∧ inTcRange 12 2048 = false
      ∧ sliceI 2047 = .ok (tc 12 2047) ∧ sliceB (-4096) = .ok (tc 13 (-4096)) ∧ sliceJ 1048574 = .ok (tc 21 1048574) := by
  decide
/-- FiniteInputRangeTest: inputs of 13 bits at both ends of the 12-bit interval and one outside. -/
theorem witness_finiteInput :
    inTcRange 12 (BitVec.toInt (0x7FF : BitVec 13)) = true ∧ inTcRange 12 (BitVec.toInt (0x1800 : BitVec 13)) = true
      ∧ inTcRange 12 (BitVec.toInt (0x800 : BitVec 13)) = false := by decide
/-- The instruction and row pairs of RegisterRegisterWords, RegisterImmediateWords and BranchWords under the hardware's
parameters. -/
theorem witness_rows (a b c : RegName) (v : Int) :
    ((.xor a b c, metadataRom.xor) : Instr × RSpec) ∈
        [(.add a b c, Encoder.default.metadataTable.add), (.sub a b c, Encoder.default.metadataTable.sub),
         (.and a b c, Encoder.default.metadataTable.and), (.or a b c, Encoder.default.metadataTable.or),
         (.xor a b c, Encoder.default.metadataTable.xor)]
      ∧ ((.jalr a b v, metadataRom.jalr) : Instr × FSpec) ∈
        [(.addi a b v, Encoder.default.metadataTable.addi), (.andi a b v, Encoder.default.metadataTable.andi),
         (.ori a b v, Encoder.default.metadataTable.ori), (.xori a b v, Encoder.default.metadataTable.xori),
         (.jalr a b v, Encoder.default.metadataTable.jalr)]
      ∧ ((.bge a b v, metadataRom.bge) : Instr × FSpec) ∈
        [(.beq a b v, Encoder.default.metadataTable.beq), (.bne a b v, Encoder.default.metadataTable.bne),
         (.blt a b v, Encoder.default.metadataTable.blt), (.bge a b v, Encoder.default.metadataTable.bge)] := by
  simp [Encoder.default]
/-- RegisterImmediateWords, RegisterImmediateWordsBySum: both ends inside, both outside. -/
theorem witness_immediate :
    answerTo "addi x1, x1, -2048" = some (.ok 0x80008093) ∧ answerTo "addi x1, x1, 2047" = some (.ok 0x7FF08093)
      ∧ answerTo "addi x1, x1, -2049" = some (.error .immediateOverflow)
      ∧ answerTo "addi x1, x1, 2048" = some (.error .immediateOverflow) := by decide
/-- BranchWords, BranchWordsBySum: the ends of the range by parity, and outside it; u is the unsigned value. -/
theorem witness_branch :
    (answerTo "beq x1, x2, -4096" = some (.ok 0x80208063) ∧ (4096 : Int) = -4096 % 8192)
      ∧ answerTo "beq x1, x2, 4094" = some (.ok 0x7E208FE3)
      ∧ answerTo "beq x1, x2, -4095" = some (.error .offsetMisaligned)
      ∧ answerTo "beq x1, x2, 4095" = some (.error .offsetMisaligned)
      ∧ answerTo "beq x1, x2, -4097" = some (.error .offsetOutOfRange)
      ∧ answerTo "beq x1, x2, 4096" = some (.error .offsetOutOfRange) := by decide
/-- JumpWordsUnderEachLayout, JumpWordsBySum: the same under each layout. -/
theorem witness_jump :
    (answerTo "jal x31, -1048576" = some (.ok 0x80000FEF) ∧ (1048576 : Int) = -1048576 % 2097152)
      ∧ encodeStd "jal x31, 1048574" = .ok 0x7FFFFFEF
      ∧ encodeStd "jal x1, -1048575" = .error .offsetMisaligned
      ∧ answerTo "jal x1, 1048575" = some (.error .offsetMisaligned)
      ∧ answerTo "jal x1, -1048577" = some (.error .offsetOutOfRange)
      ∧ encodeStd "jal x1, 1048576" = .error .offsetOutOfRange := by decide
/-- UnroutedMnemonicsAreRefused, UnsupportedExactlyByFirstToken, ArityExactlyByTokenCount, InvalidImmediateExactlyByItsToken,
FittingLineRunsItsRequest: the tokens of a line for each clause. -/
theorem witness_tokens :
    tokens "lw x1, 0(x2)".toList = ["lw".toList, "x1,".toList, "0(x2)".toList]
      ∧ tokens " \t".toList = [] ∧ tokens "mul x1".toList = ["mul".toList, "x1".toList]
      ∧ tokens "add".toList = ["add".toList] ∧ familyOf "add".toList = some .r
      ∧ tokens "jal x1 2 3".toList = ["jal".toList, "x1".toList, "2".toList, "3".toList] ∧ familyOf "jal".toList = some .j
      ∧ tokens "addi x99, y z".toList = ["addi".toList, "x99,".toList, "y".toList, "z".toList]
      ∧ familyOf "addi".toList = some .i ∧ familyOf "bge".toList = some .b
      ∧ tokens "bge p, q 0x1".toList = ["bge".toList, "p,".toList, "q".toList, "0x1".toList]
      ∧ tokens "jal x1 -".toList = ["jal".toList, "x1".toList, "-".toList] := by decide
theorem witness_badImmediate (v : Int) : parseImm "z".toList ≠ .ok v ∧ parseImm "0x1".toList ≠ .ok v
    ∧ parseImm "-".toList ≠ .ok v := by
  have h : parseImm "z".toList = .error .invalidImmediateSyntax ∧ parseImm "0x1".toList = .error .invalidImmediateSyntax
      ∧ parseImm "-".toList = .error .invalidImmediateSyntax := by decide
  rw [h.1, h.2.1, h.2.2]
  simp
theorem witness_fitting :
    tokens "xor x1,, , q".toList = [(Mnemonic.r .xor).name, "x1,,".toList, ",".toList, "q".toList]
      ∧ tokens "jalr x1, x5, -1".toList = [(Mnemonic.i .jalr).name, "x1,".toList, "x5,".toList, "-1".toList]
      ∧ tokens "bne x1, x5, +01".toList = [(Mnemonic.b .bne).name, "x1,".toList, "x5,".toList, "+01".toList]
      ∧ tokens "jal x1, 16".toList = [Mnemonic.jal.name, "x1,".toList, "16".toList]
      ∧ parseImm "-1".toList = .ok (-1) ∧ parseImm "+01".toList = .ok 1 ∧ parseImm "16".toList = .ok 16 := by decide
/-- TokensAreMaximalRuns, WhiteSpaceRunsAreInterchangeable: a run of each of the six characters. -/
theorem witness_white :
    " \t\n\x0B\x0C\r".toList.all isWhite = true ∧ "add,x1".toList.all (fun c => !isWhite c) = true
      ∧ answerTo "add \tx1 x2 x3" = answerTo "add\nx1 x2 x3" := by decide
/-- StepRunsTheDecodedCall, EveryCallIsAnsweredOnce, ResultDependsOnCallAndTablesAlone, FailuresDoNotDependOnLayout: a call that
reads as a request, one that does not, and none. -/
theorem witness_calls :
    (Call.line "jal x1, 3".toList).parse = .ok (.jal "x1".toList 3)
      ∧ (Call.line "mul".toList).parse = .error .unsupportedInstruction
      ∧ (Call.port 13 "x1".toList [] [] 3).parse = .ok (.jal "x1".toList 3)
      ∧ (lineState "mul").calls = [.line "mul".toList] ∧ State.reset.calls = [] := by decide
/-- CanonicalLinesAreAccepted: a well-formed request and its line. -/
theorem witness_canonical :
    (Instr.bge "x31".toList "x0".toList (-4096)).wellFormed = true
      ∧ canonicalLine (.bge "x31".toList "x0".toList (-4096)) = "bge x31, x0, -4096".toList := by decide
/-- DecodeOfEncodeIsTheRequest, DistinctRequestsGetDistinctWords, the invariant: both layouts conform, and a table other than
the default one does. -/
theorem witness_conforms :
    Encoder.default.Conforms ∧ { Encoder.default with jLayout := .std }.Conforms
      ∧ { Encoder.default with metadataTable := { metadataRom with xor := ⟨0b0110011, 0b101, 0b1111111⟩ } }.Conforms := by
  decide
/-- A table whose branch rows are equal does not conform. -/
theorem witness_not_conforms :
    ¬ { Encoder.default with metadataTable := { metadataRom with bne := metadataRom.beq } }.Conforms := by decide
/-- DecodeOfEncodeIsTheRequest, EncodeOfDecodeIsTheWord, BranchAndJumpEncodingIsIdempotent: words of each format. -/
theorem witness_words :
    encode Encoder.default (.blt "x3".toList "x4".toList (-4096)) = some 0x8041C063
      ∧ decode Encoder.default 0x7FFFFFEF = .ok (.jal "x31".toList 1048574)
      ∧ (Instr.jal "x31".toList 1048574).mnemonic ∈ Mnemonic.encodable
      ∧ Encoder.default.encB .blt "x3".toList "x4".toList (-4096) = .ok 0x8041C063
      ∧ Encoder.default.encJ "x31".toList 1048574 = .ok 0x7FFFFFEF := by decide
/-- JumpLayoutsAgreeExactly: an offset where the two sides hold, one where neither does. -/
theorem witness_layouts :
    layoutJ .doc (tc 21 (-2)) 1 0b1101111 = layoutJ .std (tc 21 (-2)) 1 0b1101111
      ∧ layoutJ .doc (tc 21 16) 1 0b1101111 ≠ layoutJ .std (tc 21 16) 1 0b1101111 := by decide
/-- StepKeepsTheInvariant: a state of the invariant whose step adds a word. -/
theorem witness_invariant : (lineState "add x1 x2 x3").Inv ∧ ∃ t, step (lineState "add x1 x2 x3") = .next t :=
  ⟨(by intro w h; cases h), _, rfl⟩
/-- AnsweredWordsEndInOnes: a step that answers a word. -/
theorem witness_answered : ∃ t, step (lineState "jal x1, 16") = .next t
    ∧ t.results = (lineState "jal x1, 16").results ++ [.ok 0x000080EF] := ⟨_, rfl, by decide⟩
/-- LinesGetTheirResultsInOrder: a state whose calls are two lines and a port call that waits, and the lines' results, the first a
failure (95, section 8.4). -/
theorem witness_lines :
    ({ State.reset with calls := [.line "add x1, x2".toList, .line "add x1, x2, x3".toList, .port 15 [] [] [] 0] } : State).calls =
        ["add x1, x2".toList, "add x1, x2, x3".toList].map Call.line ++ [.port 15 [] [] [] 0]
      ∧ ["add x1, x2".toList, "add x1, x2, x3".toList].map (encodeLine Encoder.default) =
        [.error .operandArityMismatch, .ok 0x003100B3] := by decide
/-- RunsAreTheEncodeFunctionOfTheirCalls: the encode function on a call of each form (95, sections 3, 4, 8.4). -/
theorem witness_encodeCall :
    [.line "add x1, x2".toList, .request (.r .add "x1".toList "x2".toList "x3".toList),
        .port 14 "x0".toList "x1".toList [] 0].map Encoder.default.encodeCall =
      [.error .operandArityMismatch, .ok 0x003100B3, .ok 0x00008067] := by decide
/-- PortCodesSelectTheMnemonic: the last encodable code, the first and last that are not. -/
theorem witness_codes :
    Mnemonic.ofCode 14 = some (.i .jalr) ∧ Mnemonic.ofCode 15 = some (.unrouted .lw) ∧ Mnemonic.ofCode 19 = none
      ∧ Mnemonic.ofCode 31 = none ∧ 15 ≤ (15 : BitVec 5).toNat := by decide
/-- TypedRequestsCallTheirFamilysEncoder: a typed request presented, one that fails, and the port codes either side of 15. -/
theorem witness_typed :
    ({ State.reset with calls := [.request (.j "x1".toList 3)] } : State).calls = [.request (.j "x1".toList 3)]
      ∧ Encoder.default.encodeCall (.request (.j "x1".toList 3)) = .error .offsetMisaligned
      ∧ Encoder.default.encodeCall (.port 14 "x0".toList "x1".toList [] 0) = .ok 0x00008067
      ∧ Encoder.default.encodeCall (.port 15 [] [] [] 0) = .error .unsupportedInstruction
      ∧ Encoder.default.encodeCall (.port 31 [] [] [] 0) = .error .unsupportedInstruction := by decide
/-- PinsShowTheResult: a state whose last result is a word, one whose last is a failure. -/
theorem witness_pins :
    ({ State.reset with results := [.ok 3] } : State).results = [] ++ [.ok 3]
      ∧ ({ State.reset with results := [.error .offsetMisaligned] } : State).results = [] ++ [.error .offsetMisaligned] := by
  decide

end Sys2Proof.Tests
end

/-! ## The dispatcher on a line's tokens

What `parseLine` and `encodeLine` answer on each form a line's tokens can take (46_dispatcher.md R151 to R158), and
that the two agree on every line. -/

namespace Sys2Proof

theorem Mnemonic.family_eq_none {m : Mnemonic} : m.family = none ↔ ∃ u, m = .unrouted u := by
  cases m <;> simp [Mnemonic.family]

/-! ### The front end, by first token -/

section ParseLine

variable {line : Line} {ops : List Token} {a b c t : Token}

theorem parseLine_of_no_token (h : tokens line = []) : parseLine line = .error .unsupportedInstruction := by
  simp [parseLine, h]

theorem parseLine_of_no_mnemonic {name : Token} (h : tokens line = name :: ops) (hname : Mnemonic.ofName name = none) :
    parseLine line = .error .unsupportedInstruction := by
  simp [parseLine, h, hname]

theorem parseLine_unrouted {m : UMnemonic} (h : tokens line = (Mnemonic.unrouted m).name :: ops) :
    parseLine line = .ok m.request := by
  simp [parseLine, h]

theorem parseLine_r {m : RMnemonic} (h : tokens line = [(Mnemonic.r m).name, a, b, c]) :
    parseLine line = .ok (m.request (stripCommas a) (stripCommas b) (stripCommas c)) := by
  simp [parseLine, h]

theorem parseLine_i {m : IMnemonic} (h : tokens line = [(Mnemonic.i m).name, a, b, t]) :
    parseLine line = (parseImm t).map (m.request (stripCommas a) (stripCommas b)) := by
  simp [parseLine, h]

theorem parseLine_b {m : BMnemonic} (h : tokens line = [(Mnemonic.b m).name, a, b, t]) :
    parseLine line = (parseImm t).map (m.request (stripCommas a) (stripCommas b)) := by
  simp [parseLine, h]

theorem parseLine_jal (h : tokens line = [Mnemonic.jal.name, a, t]) :
    parseLine line = (parseImm t).map (Instr.jal (stripCommas a)) := by
  simp [parseLine, h]

/-- R155: a family mnemonic with any other number of operands than its family needs. -/
theorem parseLine_arity {m : Mnemonic} {f : Family} (h : tokens line = m.name :: ops) (hf : m.family = some f)
    (hn : ops.length ≠ f.need) : parseLine line = .error .operandArityMismatch := by
  cases m with
  | unrouted m => cases hf
  | r m | i m | b m | jal =>
    cases hf
    simp only [parseLine, h, Mnemonic.ofName_name]
    split
    · exact absurd rfl hn
    · rfl

end ParseLine

/-! ### R158's function, by first token -/

section EncodeLine

variable (e : Encoder) {line : Line} {ops : List Token} {a b c t : Token}

theorem encodeLine_of_no_token (h : tokens line = []) : encodeLine e line = .error .unsupportedInstruction := by
  simp [encodeLine, h]

theorem encodeLine_of_no_family {name : Token} (h : tokens line = name :: ops) (hname : familyOf name = none) :
    encodeLine e line = .error .unsupportedInstruction := by
  simp [encodeLine, h, hname]

theorem encodeLine_r {m : RMnemonic} (h : tokens line = [(Mnemonic.r m).name, a, b, c]) :
    encodeLine e line = e.encR m (stripCommas a) (stripCommas b) (stripCommas c) := by
  simp [encodeLine, h, Mnemonic.family, Family.need]

theorem encodeLine_i {m : IMnemonic} (h : tokens line = [(Mnemonic.i m).name, a, b, t]) :
    encodeLine e line = (parseImm t).bind (e.encI m (stripCommas a) (stripCommas b)) := by
  simp [encodeLine, h, Mnemonic.family, Family.need, bind]

theorem encodeLine_b {m : BMnemonic} (h : tokens line = [(Mnemonic.b m).name, a, b, t]) :
    encodeLine e line = (parseImm t).bind (e.encB m (stripCommas a) (stripCommas b)) := by
  simp [encodeLine, h, Mnemonic.family, Family.need, bind]

theorem encodeLine_jal (h : tokens line = [Mnemonic.jal.name, a, t]) :
    encodeLine e line = (parseImm t).bind (e.encJ (stripCommas a)) := by
  simp [encodeLine, h, Mnemonic.family, Family.need, bind]

theorem encodeLine_arity {m : Mnemonic} {f : Family} (h : tokens line = m.name :: ops) (hf : m.family = some f)
    (hn : ops.length ≠ f.need) : encodeLine e line = .error .operandArityMismatch := by
  simp [encodeLine, h, hf, hn]

end EncodeLine

/-! ### The two agree -/

/-- The result of a call is the encode function's on the request it parses to, or the failure that stops it. -/
theorem Encoder.encodeCall_eq_bind (e : Encoder) (c : Machine.Call) : e.encodeCall c = c.parse.bind e.encodeRequest := by
  unfold Encoder.encodeCall
  cases c.parse <;> rfl

theorem Encoder.encodeCall_line_ok (e : Encoder) {line : Line} {i : Instr} (h : parseLine line = .ok i) :
    e.encodeCall (.line line) = e.encodeRequest i := by
  rw [Encoder.encodeCall_eq_bind, Machine.Call.parse, h]
  rfl

theorem Encoder.encodeCall_line_error (e : Encoder) {line : Line} {k : Failure} (h : parseLine line = .error k) :
    e.encodeCall (.line line) = .error k := by
  rw [Encoder.encodeCall_eq_bind, Machine.Call.parse, h]
  rfl

/-- A line whose request waits for its immediate: the immediate's failure, or the encode function's result. -/
theorem Encoder.encodeCall_line_map (e : Encoder) {line : Line} {imm : Except Failure Int} {request : Int → Instr}
    (h : parseLine line = imm.map request) :
    e.encodeCall (.line line) = imm.bind fun v => e.encodeRequest (request v) := by
  cases imm with
  | error k => exact e.encodeCall_line_error h
  | ok v => exact e.encodeCall_line_ok h

/-- A line whose first token is a family mnemonic, with as many operands as its family needs. -/
theorem Encoder.encodeCall_line_of_family (e : Encoder) {line : Line} {ops : List Token} {m : Mnemonic} {f : Family}
    (h : tokens line = m.name :: ops) (hf : m.family = some f) (hn : ops.length = f.need) :
    e.encodeCall (.line line) = encodeLine e line := by
  cases m with
  | unrouted m => cases hf
  | r m =>
    cases hf
    obtain ⟨a, b, c, rfl⟩ := List.length_eq_three.1 hn
    rw [e.encodeCall_line_ok (parseLine_r h), encodeLine_r e h, Encoder.encodeRequest_r]
  | i m =>
    cases hf
    obtain ⟨a, b, t, rfl⟩ := List.length_eq_three.1 hn
    simp only [e.encodeCall_line_map (parseLine_i h), encodeLine_i e h, Encoder.encodeRequest_i]
  | b m =>
    cases hf
    obtain ⟨a, b, t, rfl⟩ := List.length_eq_three.1 hn
    simp only [e.encodeCall_line_map (parseLine_b h), encodeLine_b e h, Encoder.encodeRequest_b]
  | jal =>
    cases hf
    obtain ⟨a, t, rfl⟩ := List.length_eq_two.1 hn
    rw [e.encodeCall_line_map (parseLine_jal h), encodeLine_jal e h]
    rfl

/-- The call of a line gets R158's result, under every parameter. -/
theorem Encoder.encodeCall_line (e : Encoder) (line : Line) : e.encodeCall (.line line) = encodeLine e line := by
  cases h : tokens line with
  | nil => rw [e.encodeCall_line_error (parseLine_of_no_token h), encodeLine_of_no_token e h]
  | cons name ops =>
    cases hname : Mnemonic.ofName name with
    | none =>
      rw [e.encodeCall_line_error (parseLine_of_no_mnemonic h hname),
        encodeLine_of_no_family e h (familyOf_eq_none_of_ofName hname)]
    | some m =>
      obtain rfl := Mnemonic.name_of_ofName hname
      cases hf : m.family with
      | none =>
        obtain ⟨u, rfl⟩ := Mnemonic.family_eq_none.1 hf
        rw [e.encodeCall_line_ok (parseLine_unrouted h), Encoder.encodeRequest_unrouted,
          encodeLine_of_no_family e h (familyOf_name _)]
      | some f =>
        by_cases hn : ops.length = f.need
        · exact e.encodeCall_line_of_family h hf hn
        · rw [e.encodeCall_line_error (parseLine_arity h hf hn), encodeLine_arity e h hf hn]

end Sys2Proof

/-! ## Runs and the tables (10_state.md) -/

namespace Sys2Proof

/-- R23: the one InstructionSpec of a mnemonic is its row. -/
@[simp] theorem Encoder.metaOf_name (e : Encoder) (m : Mnemonic) :
    e.metaOf m.name = .ok (e.metadataTable.lookup m) := by
  simp [Encoder.metaOf]

namespace Machine

/-- Everything a run can do: answer the first `n` calls, each by the encode function, and change nothing else. -/
theorem run_eq_encodeCalls (n : Nat) (s : State) :
    Sys2Proof.core.run n s =
      .next { s with calls := s.calls.drop n,
                     results := s.results ++ (s.calls.take n).map Encoder.default.encodeCall } := by
  induction n generalizing s with
  | zero => simp [Host.Core.run]
  | succ n ih =>
    cases h : s.calls with
    | nil => rw [run_succ_of_step (step_idle h), ih, h]; simp
    | cons c rest => rw [run_succ_of_step (step_eq_answer h), ih]; simp

/-- A run only adds to the results. -/
theorem run_results_prefix {n : Nat} {s t : State} (h : Sys2Proof.core.run n s = .next t) : s.results <+: t.results := by
  rw [run_eq_encodeCalls] at h
  cases h
  exact List.prefix_append _ _

/-- The result a step adds is the encode function's. -/
theorem result_of_step {s : State} {c : Call} {rest : List Call} {r : Result} (h : s.calls = c :: rest)
    (hs : step s = .next { s with calls := rest, results := s.results ++ [r] }) : r = Encoder.default.encodeCall c := by
  rw [step_eq_answer h] at hs
  simpa using (Host.Outcome.next.inj hs).symm

end Machine

end Sys2Proof

/-! ## The obligations of 10_state.md -/

section

open Sys2Proof Sys2Proof.Machine

/-- Settles O1: the tables' own equations, each entry of the Register ROM by `registerRom_get`. -/
theorem resetHoldsTheTwoTables : Obligations.ResetHoldsTheTwoTables := by
  refine ⟨fun i => ?_, rfl, rfl, State.reset_calls, State.reset_results⟩
  rw [registerRom_get]
  exact BitVec.eq_of_toNat_eq (by simp)

/-- Settles O42: the record is empty after reset. -/
theorem resetMeetsTheInvariant : Obligations.ResetMeetsTheInvariant := by
  intro w hw
  rw [State.reset_results] at hw
  cases hw

/-- Settles O51, by induction on the number of steps. -/
theorem runsAreTheEncodeFunctionOfTheirCalls : Obligations.RunsAreTheEncodeFunctionOfTheirCalls :=
  run_eq_encodeCalls

/-- Settles O45: either step adds the encode function's result on the shared call. -/
theorem resultDependsOnCallAndTablesAlone : Obligations.ResultDependsOnCallAndTablesAlone := by
  intro s s' c rest rest' r hs hs' hstep
  rw [result_of_step hs hstep]
  exact step_eq_answer hs'

/-- Settles O46: the run answers exactly the lines, and a line's call gets the normative dispatcher's result. -/
theorem linesGetTheirResultsInOrder : Obligations.LinesGetTheirResultsInOrder := by
  intro s lines rest h
  have hlen : lines.length = (lines.map Call.line).length := by simp
  rw [run_eq_encodeCalls, h, hlen, List.drop_left, List.take_left, List.map_map]
  simp only [Function.comp_def, Encoder.encodeCall_line]

/-- Settles O44: a run only adds to the results, every state answers its next call by the same tables, and a mnemonic's
InstructionSpec is its row. -/
theorem noStepWritesTheTables : Obligations.NoStepWritesTheTables := by
  refine ⟨fun n s t hrun => ⟨?_, fun c rest hc => step_eq_answer hc⟩, fun e m _ => ⟨e.metadataTable.lookup m, fun x => ?_⟩⟩
  · obtain ⟨rs, hrs⟩ := run_results_prefix hrun
    exact ⟨rs, hrs.symm⟩
  · rw [Encoder.metaOf_name, Except.ok.injEq, eq_comm]

end

/-! ## The string form of a word (20_memory.md R41) -/

namespace Sys2Proof

@[simp] theorem wordString_length (w : Word) : (wordString w).length = 32 := by simp [wordString]

theorem mem_wordString {w : Word} {c : Char} (h : c ∈ wordString w) : c = '0' ∨ c = '1' := by
  obtain ⟨i, -, rfl⟩ := List.mem_map.mp h
  cases w.getLsbD (31 - i)
  · exact .inl rfl
  · exact .inr rfl

theorem wordString_getElem? (w : Word) {k : Nat} (hk : k < 32) :
    (wordString w)[k]? = some (if w.getLsbD (31 - k) then '1' else '0') := by
  simp [wordString, List.getElem?_range hk]

theorem bitChar_toNat_sub (b : Bool) : (if b then '1' else '0').toNat - 48 = b.toNat := by
  cases b <;> rfl

/-- One step of reading a binary numeral from its most significant end. -/
theorem two_mul_div_add_testBit (x m : Nat) : 2 * (x / 2 ^ (m + 1)) + (x.testBit m).toNat = x / 2 ^ m := by
  rw [Nat.toNat_testBit, Nat.pow_succ, ← Nat.div_div_eq_div_mul]
  exact Nat.div_add_mod (x / 2 ^ m) 2

/-- The first k characters, read as a binary numeral, are the top k bits of the word. -/
theorem foldl_take_wordString (w : Word) {k : Nat} (hk : k ≤ 32) :
    ((wordString w).take k).foldl (fun n c => 2 * n + (c.toNat - 48)) 0 = w.toNat / 2 ^ (32 - k) := by
  induction k with
  | zero => exact (Nat.div_eq_of_lt w.isLt).symm
  | succ k ih =>
    have hwidth : 32 - k = (31 - k) + 1 := by omega
    have hnext : 32 - (k + 1) = 31 - k := by omega
    rw [List.take_add_one, wordString_getElem? w hk, Option.toList_some, List.foldl_append, ih (by omega), hwidth, hnext,
      List.foldl_cons, List.foldl_nil, bitChar_toNat_sub]
    exact two_mul_div_add_testBit w.toNat (31 - k)

/-- The whole string, read as a binary numeral, is the unsigned integer. -/
theorem foldl_wordString (w : Word) :
    (wordString w).foldl (fun n c => 2 * n + (c.toNat - 48)) 0 = w.toNat := by
  have h := foldl_take_wordString w (Nat.le_refl 32)
  rwa [List.take_of_length_le (wordString_length w).le, Nat.sub_self, Nat.pow_zero, Nat.div_one] at h

end Sys2Proof

/-! ## The obligation of 20_memory.md -/

section

open Sys2Proof

/-- Settles O48: the numeral's value by induction on the number of characters read. -/
theorem wordStringIsMostSignificantFirst : Obligations.WordStringIsMostSignificantFirst := by
  refine fun w => ⟨wordString_length w, fun c hc => mem_wordString hc, fun k hk => ?_, foldl_wordString w⟩
  rw [wordString_getElem? w hk]
  cases w.getLsbD (31 - k) <;> decide

end

/-! ## Words as the compositors' images (30_encoding.md R51 to R55)

Both encoders, the machine's monadic one and the shift forms, answer a word exactly when the operands are register
names and in-range immediates, and it is the word of the format's layout. So the two agree, and each word inverts. -/

namespace Sys2Proof

/-! ### What the machine's format encoders answer -/

/-- A computation in two parts answers exactly when both parts do. -/
theorem Except.bind_eq_ok {ε α β : Type} {x : Except ε α} {f : α → Except ε β} {b : β} :
    (x >>= f) = .ok b ↔ ∃ a, x = .ok a ∧ f a = .ok b := by
  cases x <;> simp [bind, Except.bind]

theorem regIdx_eq_ok {name : RegName} {i : BitVec 5} : regIdx name = .ok i ↔ name = regName i := by
  rcases regName_or_not name with ⟨j, rfl⟩ | h
  · rw [regIdx_regName, Except.ok.injEq]
    refine ⟨congrArg regName, fun h => ?_⟩
    simpa [regIdx_regName] using congrArg regIdx h
  · simp [regIdx_of_not_name h, h i]

section Families

variable {e : Encoder} {a b c : RegName} {v : Int} {w : Word}

theorem Encoder.encR_eq_ok {m : RMnemonic} :
    e.encR m a b c = .ok w ↔ ∃ rd rs1 rs2, a = regName rd ∧ b = regName rs1 ∧ c = regName rs2
      ∧ layoutR (e.metadataTable.rRow m).funct7 rs2 rs1 (e.metadataTable.rRow m).funct3 rd
          (e.metadataTable.rRow m).opcode = w := by
  simp [Encoder.encR, Except.bind_eq_ok, regIdx_eq_ok, pure, Except.pure]

theorem Encoder.encI_eq_ok {m : IMnemonic} :
    e.encI m a b v = .ok w ↔ ∃ rd rs1, a = regName rd ∧ b = regName rs1 ∧ isImmI v = true
      ∧ layoutI (tc 12 v) rs1 (e.metadataTable.iRow m).funct3 rd (e.metadataTable.iRow m).opcode = w := by
  simp [Encoder.encI, Except.bind_eq_ok, regIdx_eq_ok, sliceI_ok_iff, pure, Except.pure]

theorem Encoder.encB_eq_ok {m : BMnemonic} :
    e.encB m a b v = .ok w ↔ ∃ rs1 rs2, a = regName rs1 ∧ b = regName rs2 ∧ isOffB v = true
      ∧ layoutB (tc 13 v) rs2 rs1 (e.metadataTable.bRow m).funct3 (e.metadataTable.bRow m).opcode = w := by
  simp [Encoder.encB, Except.bind_eq_ok, regIdx_eq_ok, sliceB_ok_iff, pure, Except.pure]

theorem Encoder.encJ_eq_ok :
    e.encJ a v = .ok w ↔ ∃ rd, a = regName rd ∧ isOffJ v = true
      ∧ layoutJ e.jLayout (tc 21 v) rd e.metadataTable.jal.opcode = w := by
  simp [Encoder.encJ, Except.bind_eq_ok, regIdx_eq_ok, sliceJ_ok_iff, pure, Except.pure]

/-! ### What the encoder written by shifts answers -/

theorem encode_r_eq_some {m : RMnemonic} :
    encode e (m.request a b c) = some w ↔ ∃ rd rs1 rs2, a = regName rd ∧ b = regName rs1 ∧ c = regName rs2
      ∧ layoutR (e.metadataTable.rRow m).funct7 rs2 rs1 (e.metadataTable.rRow m).funct3 rd
          (e.metadataTable.rRow m).opcode = w := by
  simp only [encode_eq_some, RMnemonic.request_wellFormed, Bool.and_eq_true, isRegName_iff, shiftWord_r]
  constructor
  · rintro ⟨⟨⟨⟨rd, rfl⟩, rs1, rfl⟩, rs2, rfl⟩, hw⟩
    exact ⟨rd, rs1, rs2, rfl, rfl, rfl, shiftR_eq_layoutR .. ▸ hw⟩
  · rintro ⟨rd, rs1, rs2, rfl, rfl, rfl, hw⟩
    exact ⟨⟨⟨⟨rd, rfl⟩, rs1, rfl⟩, rs2, rfl⟩, (shiftR_eq_layoutR ..).trans hw⟩

theorem encode_i_eq_some {m : IMnemonic} :
    encode e (m.request a b v) = some w ↔ ∃ rd rs1, a = regName rd ∧ b = regName rs1 ∧ isImmI v = true
      ∧ layoutI (tc 12 v) rs1 (e.metadataTable.iRow m).funct3 rd (e.metadataTable.iRow m).opcode = w := by
  simp only [encode_eq_some, IMnemonic.request_wellFormed, Bool.and_eq_true, isRegName_iff, shiftWord_i]
  constructor
  · rintro ⟨⟨⟨⟨rd, rfl⟩, rs1, rfl⟩, hv⟩, hw⟩
    exact ⟨rd, rs1, rfl, rfl, hv, shiftI_eq_layoutI .. ▸ hw⟩
  · rintro ⟨rd, rs1, rfl, rfl, hv, hw⟩
    exact ⟨⟨⟨⟨rd, rfl⟩, rs1, rfl⟩, hv⟩, (shiftI_eq_layoutI ..).trans hw⟩

theorem encode_b_eq_some {m : BMnemonic} :
    encode e (m.request a b v) = some w ↔ ∃ rs1 rs2, a = regName rs1 ∧ b = regName rs2 ∧ isOffB v = true
      ∧ layoutB (tc 13 v) rs2 rs1 (e.metadataTable.bRow m).funct3 (e.metadataTable.bRow m).opcode = w := by
  simp only [encode_eq_some, BMnemonic.request_wellFormed, Bool.and_eq_true, isRegName_iff, shiftWord_b]
  constructor
  · rintro ⟨⟨⟨⟨rs1, rfl⟩, rs2, rfl⟩, hv⟩, hw⟩
    exact ⟨rs1, rs2, rfl, rfl, hv, shiftB_eq_layoutB .. ▸ hw⟩
  · rintro ⟨rs1, rs2, rfl, rfl, hv, hw⟩
    exact ⟨⟨⟨⟨rs1, rfl⟩, rs2, rfl⟩, hv⟩, (shiftB_eq_layoutB ..).trans hw⟩

theorem encode_jal_eq_some :
    encode e (.jal a v) = some w ↔ ∃ rd, a = regName rd ∧ isOffJ v = true
      ∧ layoutJ e.jLayout (tc 21 v) rd e.metadataTable.jal.opcode = w := by
  simp only [encode_eq_some, Instr.wellFormed, Bool.and_eq_true, isRegName_iff, shiftWord]
  constructor
  · rintro ⟨⟨⟨rd, rfl⟩, hv⟩, hw⟩
    exact ⟨rd, rfl, hv, shiftJ_eq_layoutJ .. ▸ hw⟩
  · rintro ⟨rd, rfl, hv, hw⟩
    exact ⟨⟨⟨rd, rfl⟩, hv⟩, (shiftJ_eq_layoutJ ..).trans hw⟩

end Families

theorem encode_unrouted (e : Encoder) (m : UMnemonic) : encode e m.request = none := by
  simp [encode]

/-! ### The two encoders agree (R55) -/

theorem Encoder.encodeRequest_eq_ok {e : Encoder} {i : Instr} {w : Word} :
    e.encodeRequest i = .ok w ↔ encode e i = some w := by
  rcases i.cases_family with ⟨m, a, b, c, rfl⟩ | ⟨m, a, b, v, rfl⟩ | ⟨m, a, b, v, rfl⟩ | ⟨a, v, rfl⟩ | ⟨m, rfl⟩
  · rw [Encoder.encodeRequest_r, Encoder.encR_eq_ok, encode_r_eq_some]
  · rw [Encoder.encodeRequest_i, Encoder.encI_eq_ok, encode_i_eq_some]
  · rw [Encoder.encodeRequest_b, Encoder.encB_eq_ok, encode_b_eq_some]
  · exact Encoder.encJ_eq_ok.trans encode_jal_eq_some.symm
  · simp [Encoder.encodeRequest_unrouted, encode_unrouted]

/-- A word answered to a call of any form is in the encoder's image (R69). -/
theorem Encoder.inImage_of_encodeCall {e : Encoder} {c : Machine.Call} {w : Word} (h : e.encodeCall c = .ok w) :
    e.InImage w := by
  rw [Encoder.encodeCall_eq_bind] at h
  obtain ⟨i, -, hi⟩ := Except.bind_eq_ok.1 h
  exact ⟨i, Encoder.encodeRequest_eq_ok.1 hi⟩

end Sys2Proof

/-! ## Two's complement and sign extension (30_encoding.md R56 to R58) -/

namespace Sys2Proof

theorem inTcRange_iff {n : Nat} {v : Int} : inTcRange n v = true ↔ -2 ^ (n - 1) ≤ v ∧ v ≤ 2 ^ (n - 1) - 1 := by
  simp [inTcRange]

theorem inTcRange_sext {n : Nat} (x : BitVec n) : inTcRange n (sext x) = true :=
  inTcRange_iff.2 ⟨x.le_toInt, BitVec.toInt_le⟩

@[simp] theorem tc_sext {n : Nat} (x : BitVec n) : tc n (sext x) = x := BitVec.ofInt_toInt

theorem tc_getLsbD {n k : Nat} (v : Int) : (tc n v).getLsbD k = decide (v % 2 ^ n / 2 ^ k % 2 = 1) := by
  rw [← BitVec.testBit_toNat, Nat.testBit_eq_decide_div_mod_eq, ← tc_toNat]
  norm_cast

/-- The sign bit of a number in the interval. -/
theorem tc_getLsbD_last {n : Nat} {v : Int} (hn : 1 ≤ n) (hv : inTcRange n v = true) :
    (tc n v).getLsbD (n - 1) = decide (v < 0) := by
  rw [← BitVec.msb_eq_getLsbD_last, BitVec.msb_eq_toInt, tc_toInt hn hv]

/-! ### The slicers' ranges are those of `tc` -/

theorem inTcRange_of_isImmI {v : Int} (h : isImmI v = true) : inTcRange 12 v = true := by
  simpa [isImmI, inTcRange] using h

theorem isImmI_sext (x : BitVec 12) : isImmI (sext x) = true := by
  simpa [isImmI, inTcRange] using inTcRange_sext x

theorem inTcRange_of_isOffB {v : Int} (h : isOffB v = true) : inTcRange 13 v = true := by
  rw [isOffB, Bool.and_eq_true] at h
  simpa [inTcRange] using h.1

theorem isOffB_sext {x : BitVec 13} (h : sext x % 2 = 0) : isOffB (sext x) = true := by
  simpa [isOffB, inTcRange, h] using inTcRange_sext x

theorem inTcRange_of_isOffJ {v : Int} (h : isOffJ v = true) : inTcRange 21 v = true := by
  rw [isOffJ, Bool.and_eq_true] at h
  simpa [inTcRange] using h.1

theorem isOffJ_sext {x : BitVec 21} (h : sext x % 2 = 0) : isOffJ (sext x) = true := by
  simpa [isOffJ, inTcRange, h] using inTcRange_sext x

theorem emod_two_of_isOffB {v : Int} (h : isOffB v = true) : v % 2 = 0 := by
  rw [isOffB, Bool.and_eq_true] at h
  exact of_decide_eq_true h.2

theorem emod_two_of_isOffJ {v : Int} (h : isOffJ v = true) : v % 2 = 0 := by
  rw [isOffJ, Bool.and_eq_true] at h
  exact of_decide_eq_true h.2

/-- An even number has an even `tc`: the low bit that the branch and jump formats leave out is 0. -/
theorem tc_toNat_even {n : Nat} (hn : 1 ≤ n) {v : Int} (hv : v % 2 = 0) : (tc n v).toNat % 2 = 0 := by
  have h : ((tc n v).toNat : Int) % 2 = v % 2 := by
    rw [tc_toNat, Int.emod_emod_of_dvd v (dvd_pow_self 2 (by omega))]
  omega

/-! ### The range test on a finite input (R58) -/

theorem signCopies_eq_true {w n : Nat} {x : BitVec w} :
    signCopies n x = true ↔ ∀ k, n - 1 ≤ k → k < w → x.getLsbD k = x.getLsbD (w - 1) := by
  simp only [signCopies, List.all_eq_true, List.mem_range, beq_iff_eq]
  refine ⟨fun h k hk hkw => ?_, fun h k hk => h _ (by omega) (by omega)⟩
  rw [← h (k - (n - 1)) (by omega), Nat.add_sub_cancel' hk]

/-- The bits of the sign extension of the low bits: from bit n-1 on, copies of that bit. -/
theorem getLsbD_signExtend_setWidth {w n k : Nat} (x : BitVec w) (hn : 1 ≤ n) (hk : k < w) :
    ((x.setWidth n).signExtend w).getLsbD k = x.getLsbD (min k (n - 1)) := by
  have hlast : n - 1 < n := by omega
  simp only [BitVec.getLsbD_signExtend, BitVec.msb_eq_getLsbD_last, BitVec.getLsbD_setWidth, hk, hlast, decide_true,
    Bool.true_and]
  split
  · next hkn => rw [decide_eq_true hkn, Bool.true_and, min_eq_left (by omega)]
  · rw [min_eq_right (by omega)]

/-- The upper bits are copies of the sign exactly when the input is the sign extension of its low bits. -/
theorem signCopies_iff_signExtend {w n : Nat} (x : BitVec w) (hn : 1 ≤ n) :
    signCopies n x = true ↔ (x.setWidth n).signExtend w = x := by
  rw [signCopies_eq_true]
  constructor
  · intro h
    apply BitVec.eq_of_getLsbD_eq
    intro k hk
    rw [getLsbD_signExtend_setWidth x hn hk]
    rcases Nat.le_total k (n - 1) with hkn | hkn
    · rw [min_eq_left hkn]
    · rw [min_eq_right hkn, h (n - 1) le_rfl (by omega), h k hkn hk]
  · intro h
    have hsign : ∀ k, n - 1 ≤ k → k < w → x.getLsbD k = x.getLsbD (n - 1) := by
      intro k hkn hk
      have hbit := getLsbD_signExtend_setWidth x hn hk
      rwa [h, min_eq_right hkn] at hbit
    intro k hkn hk
    rw [hsign k hkn hk, hsign (w - 1) (by omega) (by omega)]

/-- `tc_N` of a finite input's value is its low N bits. -/
theorem tc_toInt_eq_setWidth {w n : Nat} (x : BitVec w) (h : n ≤ w) : tc n x.toInt = x.setWidth n :=
  x.signExtend_eq_setWidth_of_le h

/-- An input is the sign extension of its low bits exactly when its value is in their interval. -/
theorem signExtend_setWidth_eq_iff {w n : Nat} (x : BitVec w) (hn : 1 ≤ n) (hw : n < w) :
    (x.setWidth n).signExtend w = x ↔ inTcRange n x.toInt = true := by
  constructor
  · intro h
    rw [← h, BitVec.toInt_signExtend_of_le hw.le]
    exact inTcRange_sext _
  · intro h
    rw [← BitVec.toInt_inj, BitVec.toInt_signExtend_of_le hw.le, ← tc_toInt_eq_setWidth x hw.le, tc_toInt hn h]

end Sys2Proof

/-! ## Words and their fields (30_encoding.md R64 to R67) -/

namespace Sys2Proof

/-! ### A word is the layout of its own fields -/

theorem layoutR_of_fields (w : Word) :
    layoutR (funct7Of w) (rs2Of w) (rs1Of w) (funct3Of w) (rdOf w) (opcodeOf w) = w := by
  apply BitVec.eq_of_toNat_eq
  rw [layoutR_toNat, funct7Of_toNat, rs2Of_toNat, rs1Of_toNat, funct3Of_toNat, rdOf_toNat, opcodeOf_toNat]
  omega

theorem layoutI_of_fields (w : Word) :
    layoutI (tc 12 (immIOf w)) (rs1Of w) (funct3Of w) (rdOf w) (opcodeOf w) = w := by
  apply BitVec.eq_of_toNat_eq
  rw [layoutI_toNat, immIOf, tc_sext, toNat_extractLsb_eq, rs1Of_toNat, funct3Of_toNat, rdOf_toNat, opcodeOf_toNat]
  omega

/-- A word as the sum of its slices in the places of the branch format. -/
theorem sum_fields_b {w : Nat} (hw : w < 2 ^ 32) :
    w / 2 ^ 31 % 2 * 2 ^ 31 + w / 2 ^ 25 % 64 * 2 ^ 25 + w / 2 ^ 20 % 2 ^ 5 * 2 ^ 20 + w / 2 ^ 15 % 2 ^ 5 * 2 ^ 15
      + w / 2 ^ 12 % 2 ^ 3 * 2 ^ 12 + w / 2 ^ 8 % 16 * 2 ^ 8 + w / 2 ^ 7 % 2 * 2 ^ 7 + w % 2 ^ 7 = w := by
  omega

/-- A word as the sum of its slices in the places of the standard jump format. -/
theorem sum_fields_j {w : Nat} (hw : w < 2 ^ 32) :
    w / 2 ^ 31 % 2 * 2 ^ 31 + w / 2 ^ 21 % 1024 * 2 ^ 21 + w / 2 ^ 20 % 2 * 2 ^ 20 + w / 2 ^ 12 % 256 * 2 ^ 12
      + w / 2 ^ 7 % 2 ^ 5 * 2 ^ 7 + w % 2 ^ 7 = w := by
  omega

theorem layoutB_of_fields (w : Word) :
    layoutB (tc 13 (offBOf w)) (rs2Of w) (rs1Of w) (funct3Of w) (opcodeOf w) = w := by
  apply BitVec.eq_of_toNat_eq
  have hoff : (tc 13 (offBOf w)).toNat = w.toNat / 2 ^ 31 % 2 * 2 ^ 12 + w.toNat / 2 ^ 7 % 2 * 2 ^ 11
      + w.toNat / 2 ^ 25 % 64 * 2 ^ 5 + w.toNat / 2 ^ 8 % 16 * 2 := by
    rw [offBOf, tc_sext]
    simp only [toNat_append_eq_add, toNat_extractLsb_eq, BitVec.toNat_ofNat]
    omega
  obtain ⟨h12, h11, h5, h1⟩ := slices13_join (a := w.toNat / 2 ^ 31 % 2) (Nat.mod_lt (w.toNat / 2 ^ 7) two_pos)
    (Nat.mod_lt (w.toNat / 2 ^ 25) (by decide : 64 > 0)) (Nat.mod_lt (w.toNat / 2 ^ 8) (by decide : 16 > 0))
  rw [layoutB_toNat, hoff, h12, h11, h5, h1, rs2Of_toNat, rs1Of_toNat, funct3Of_toNat, opcodeOf_toNat,
    sum_fields_b w.isLt]

theorem layoutJ_of_fields (l : JLayout) (w : Word) :
    layoutJ l (tc 21 (offJOf l w)) (rdOf w) (opcodeOf w) = w := by
  apply BitVec.eq_of_toNat_eq
  cases l with
  | doc =>
    have hoff : (tc 21 (offJOf .doc w)).toNat = w.toNat / 2 ^ 12 * 2 := by
      rw [offJOf, tc_sext]
      simp only [toNat_append_eq_add, toNat_extractLsb_eq, BitVec.toNat_ofNat]
      omega
    rw [layoutJ_doc_toNat, hoff, rdOf_toNat, opcodeOf_toNat]
    omega
  | std =>
    have hoff : (tc 21 (offJOf .std w)).toNat = w.toNat / 2 ^ 31 % 2 * 2 ^ 20 + w.toNat / 2 ^ 12 % 256 * 2 ^ 12
        + w.toNat / 2 ^ 20 % 2 * 2 ^ 11 + w.toNat / 2 ^ 21 % 1024 * 2 := by
      rw [offJOf, tc_sext]
      simp only [toNat_append_eq_add, toNat_extractLsb_eq, BitVec.toNat_ofNat]
      omega
    obtain ⟨h20, h12, h11, h1⟩ := slices21_join (a := w.toNat / 2 ^ 31 % 2)
      (Nat.mod_lt (w.toNat / 2 ^ 12) (by decide : 256 > 0)) (Nat.mod_lt (w.toNat / 2 ^ 20) two_pos)
      (Nat.mod_lt (w.toNat / 2 ^ 21) (by decide : 1024 > 0))
    rw [layoutJ_std_toNat, hoff, h20, h12, h11, h1, rdOf_toNat, opcodeOf_toNat, sum_fields_j w.isLt]

/-! ### The jump layouts around the string they order differently (R54) -/

/-- The DOC word as four fields: the layouts share all but the second. -/
theorem layoutJ_doc_eq_append (i : BitVec 21) (rd : BitVec 5) (op : BitVec 7) :
    layoutJ .doc i rd op = i.extractLsb 20 20
      ++ (i.extractLsb 19 12 ++ i.extractLsb 11 11 ++ i.extractLsb 10 1 : BitVec 19) ++ rd ++ op := by
  apply BitVec.eq_of_toNat_eq
  simp only [layoutJ, toNat_append_eq_add]
  omega

/-- The STD word as four fields. -/
theorem layoutJ_std_eq_append (i : BitVec 21) (rd : BitVec 5) (op : BitVec 7) :
    layoutJ .std i rd op = i.extractLsb 20 20
      ++ (i.extractLsb 10 1 ++ i.extractLsb 11 11 ++ i.extractLsb 19 12 : BitVec 19) ++ rd ++ op := by
  apply BitVec.eq_of_toNat_eq
  simp only [layoutJ, toNat_append_eq_add]
  omega

/-! ### The immediates a word carries are well-formed -/

theorem isImmI_immIOf (w : Word) : isImmI (immIOf w) = true := isImmI_sext _

theorem isOffB_offBOf (w : Word) : isOffB (offBOf w) = true := isOffB_sext (sext_append_zero_even _)

theorem isOffJ_offJOf (l : JLayout) (w : Word) : isOffJ (offJOf l w) = true := by
  cases l <;> exact isOffJ_sext (sext_append_zero_even _)

/-! ### The fields of a row that stands in a word -/

theorem RSpec.view_matchesWord {s : RSpec} {w : Word} :
    s.view.matchesWord w = true ↔ s.opcode = opcodeOf w ∧ s.funct3 = funct3Of w ∧ s.funct7 = funct7Of w := by
  simp [RSpec.view, InstructionSpec.matchesWord, and_assoc]

theorem FSpec.view_matchesWord {s : FSpec} {w : Word} :
    s.view.matchesWord w = true ↔ s.opcode = opcodeOf w ∧ s.funct3 = funct3Of w := by
  simp [FSpec.view, InstructionSpec.matchesWord]

theorem JSpec.view_matchesWord {s : JSpec} {w : Word} : s.view.matchesWord w = true ↔ s.opcode = opcodeOf w := by
  simp [JSpec.view, InstructionSpec.matchesWord]

/-! ### Decoding inverts encoding, by family -/

/-- A word has its request's row in it (30_encoding.md R51 to R54). -/
theorem matchesWord_of_encode {e : Encoder} {i : Instr} {w : Word} (h : encode e i = some w) :
    (e.metadataTable.lookup i.mnemonic).matchesWord w = true := by
  rcases i.cases_family with ⟨m, a, b, c, rfl⟩ | ⟨m, a, b, v, rfl⟩ | ⟨m, a, b, v, rfl⟩ | ⟨a, v, rfl⟩ | ⟨m, rfl⟩
  · exact Laws.rowInWord_r m a b c e w h
  · exact Laws.rowInWord_i m a b v e w h
  · exact Laws.rowInWord_b m a b v e w h
  · exact Laws.RowInWord.jal a v e w h
  · exact Laws.rowInWord_u m e w h

/-- The operands of a request are read back from its word. -/
theorem operandsOf_of_encode {e : Encoder} {i : Instr} {w : Word} (h : encode e i = some w) :
    operandsOf e.jLayout w i.mnemonic = i := by
  rcases i.cases_family with ⟨m, a, b, c, rfl⟩ | ⟨m, a, b, v, rfl⟩ | ⟨m, a, b, v, rfl⟩ | ⟨a, v, rfl⟩ | ⟨m, rfl⟩
  · obtain ⟨rd, rs1, rs2, rfl, rfl, rfl, rfl⟩ := encode_r_eq_some.1 h
    obtain ⟨-, hrs2, hrs1, -, hrd, -⟩ := layoutR_fields (e.metadataTable.rRow m).funct7 rs2 rs1
      (e.metadataTable.rRow m).funct3 rd (e.metadataTable.rRow m).opcode
    rw [RMnemonic.request_mnemonic, operandsOf, hrd, hrs1, hrs2]
  · obtain ⟨rd, rs1, rfl, rfl, hv, rfl⟩ := encode_i_eq_some.1 h
    obtain ⟨himm, hrs1, -, hrd, -⟩ := layoutI_fields (tc 12 v) rs1 (e.metadataTable.iRow m).funct3 rd
      (e.metadataTable.iRow m).opcode
    rw [IMnemonic.request_mnemonic, operandsOf, hrd, hrs1, immIOf, himm, sext,
      tc_toInt (by decide) (inTcRange_of_isImmI hv)]
  · obtain ⟨rs1, rs2, rfl, rfl, hv, rfl⟩ := encode_b_eq_some.1 h
    have heven := tc_toNat_even (n := 13) (by decide) (emod_two_of_isOffB hv)
    obtain ⟨hoff, hrs2, hrs1, -, -⟩ := layoutB_fields (tc 13 v) rs2 rs1 (e.metadataTable.bRow m).funct3
      (e.metadataTable.bRow m).opcode heven
    rw [BMnemonic.request_mnemonic, operandsOf, hrs1, hrs2, hoff, sext, tc_toInt (by decide) (inTcRange_of_isOffB hv)]
  · obtain ⟨rd, rfl, hv, rfl⟩ := encode_jal_eq_some.1 h
    have heven := tc_toNat_even (n := 21) (by decide) (emod_two_of_isOffJ hv)
    obtain ⟨hoff, hrd, -⟩ := layoutJ_fields e.jLayout (tc 21 v) rd e.metadataTable.jal.opcode heven
    rw [Instr.mnemonic, operandsOf, hrd, hoff, sext, tc_toInt (by decide) (inTcRange_of_isOffJ hv)]
  · simp [encode_unrouted] at h

theorem Mnemonic.mem_encodable {m : Mnemonic} : m ∈ Mnemonic.encodable ↔ m.family ≠ none := by
  rcases m with (_ | _ | _ | _ | _) | (_ | _ | _ | _ | _) | (_ | _ | _ | _) | _ | (_ | _ | _ | _) <;> decide

theorem mnemonic_mem_encodable_of_encode {e : Encoder} {i : Instr} {w : Word} (h : encode e i = some w) :
    i.mnemonic ∈ Mnemonic.encodable := by
  rw [Mnemonic.mem_encodable, ne_eq, Mnemonic.family_eq_none]
  rintro ⟨m, hm⟩
  have hi := operandsOf_of_encode h
  rw [hm, operandsOf] at hi
  rw [← hi, encode_unrouted] at h
  cases h

theorem decode_of_encode {e : Encoder} (hsep : e.metadataTable.Separated) {i : Instr} {w : Word}
    (h : encode e i = some w) : decode e w = .ok i := by
  rw [decode_of_matches hsep (mnemonic_mem_encodable_of_encode h) (matchesWord_of_encode h), operandsOf_of_encode h]

/-- A word in which an encodable row stands is the word of the request read from it. -/
theorem encode_operandsOf {e : Encoder} {m : Mnemonic} {w : Word} (hm : m ∈ Mnemonic.encodable)
    (hrow : (e.metadataTable.lookup m).matchesWord w = true) : encode e (operandsOf e.jLayout w m) = some w := by
  cases m with
  | r m =>
    obtain ⟨ho, h3, h7⟩ := RSpec.view_matchesWord.1 hrow
    refine encode_r_eq_some.2 ⟨_, _, _, rfl, rfl, rfl, ?_⟩
    rw [ho, h3, h7, layoutR_of_fields]
  | i m =>
    obtain ⟨ho, h3⟩ := FSpec.view_matchesWord.1 hrow
    refine encode_i_eq_some.2 ⟨_, _, rfl, rfl, isImmI_immIOf w, ?_⟩
    rw [ho, h3, layoutI_of_fields]
  | b m =>
    obtain ⟨ho, h3⟩ := FSpec.view_matchesWord.1 hrow
    refine encode_b_eq_some.2 ⟨_, _, rfl, rfl, isOffB_offBOf w, ?_⟩
    rw [ho, h3, layoutB_of_fields]
  | jal =>
    have ho := JSpec.view_matchesWord.1 hrow
    refine encode_jal_eq_some.2 ⟨_, rfl, isOffJ_offJOf _ w, ?_⟩
    rw [ho, layoutJ_of_fields]
  | unrouted m => exact absurd rfl (Mnemonic.mem_encodable.1 hm)

end Sys2Proof

/-! ## The words of the image (30_encoding.md R69, R70) -/

namespace Sys2Proof

theorem Encoder.default_conforms : Encoder.default.Conforms := by decide

/-- The opcodes of the default table's encodable rows (R93). -/
theorem metadataRom_opcode {m : Mnemonic} (hm : m ∈ Mnemonic.encodable) :
    (metadataRom.lookup m).opcode ∈ ([0b0110011, 0b0010011, 0b1100111, 0b1100011, 0b1101111] : List (BitVec 7)) := by
  revert m
  decide

/-- A word in which a row stands has its opcode. -/
theorem InstructionSpec.opcode_of_matchesWord {s : InstructionSpec} {w : Word} (h : s.matchesWord w = true) :
    s.opcode = opcodeOf w := by
  simp only [InstructionSpec.matchesWord, Bool.and_eq_true, beq_iff_eq] at h
  exact h.1.1

theorem extractLsb_one_zero_eq (w : Word) : w.extractLsb 1 0 = (opcodeOf w).extractLsb 1 0 := by
  apply BitVec.eq_of_toNat_eq
  rw [toNat_extractLsb_eq, toNat_extractLsb_eq, opcodeOf_toNat]
  omega

/-- The five opcodes of the formats end in the bits 11 (R70). -/
theorem extractLsb_one_zero_of_mem {op : BitVec 7}
    (h : op ∈ ([0b0110011, 0b0010011, 0b1100111, 0b1100011, 0b1101111] : List (BitVec 7))) :
    op.extractLsb 1 0 = 0b11 := by
  revert op
  decide

/-- R69, R70 of one word of the image, under the default table and whichever layout. -/
theorem inFormat_of_inImage {e : Encoder} (he : e.metadataTable = metadataRom) {w : Word} (h : e.InImage w) :
    w.extractLsb 1 0 = 0b11
      ∧ opcodeOf w ∈ ([0b0110011, 0b0010011, 0b1100111, 0b1100011, 0b1101111] : List (BitVec 7)) := by
  obtain ⟨i, hi⟩ := h
  have hop := metadataRom_opcode (mnemonic_mem_encodable_of_encode hi)
  rw [← he, InstructionSpec.opcode_of_matchesWord (matchesWord_of_encode hi)] at hop
  exact ⟨(extractLsb_one_zero_eq w).trans (extractLsb_one_zero_of_mem hop), hop⟩

/-- R69 of the encode function. -/
theorem Encoder.encodeRequest_injective {e : Encoder} (he : e.Conforms) {i j : Instr} {w : Word}
    (hi : e.encodeRequest i = .ok w) (hj : e.encodeRequest j = .ok w) : i = j := by
  have hdi := decode_of_encode he.2 (Encoder.encodeRequest_eq_ok.1 hi)
  have hdj := decode_of_encode he.2 (Encoder.encodeRequest_eq_ok.1 hj)
  exact Except.ok.inj (hdi.symm.trans hdj)

namespace Machine

/-- A meaning that adds a result adds the encode function's. -/
theorem result_of_exec {i : Instr} {s : State} {r : Result}
    (h : exec i s = .next { s with results := s.results ++ [r] }) : Encoder.default.encodeRequest i = r := by
  rw [exec_eq_answer] at h
  simpa [State.answer] using Host.Outcome.next.inj h

/-- Adding to the record a result whose word, if it is one, is in the image keeps the invariant. -/
theorem State.Inv.append {s : State} (hs : s.Inv) {calls : List Call} {r : Result}
    (hr : ∀ w, r = .ok w → Encoder.default.InImage w) :
    State.Inv { s with calls := calls, results := s.results ++ [r] } := by
  intro w hw
  rcases List.mem_append.1 hw with hw | hw
  · exact hs w hw
  · exact hr w (List.mem_singleton.1 hw).symm

end Machine

end Sys2Proof

/-! ## The obligations of 30_encoding.md -/

section

open Sys2Proof Sys2Proof.Machine

/-- Settles O33: the row of the request's mnemonic is the one the decoder finds, and each format's fields are read back. -/
theorem decodeOfEncodeIsTheRequest : Obligations.DecodeOfEncodeIsTheRequest :=
  fun _ _ _ he h => decode_of_encode he.2 h

/-- Settles O41: the one result a step adds is the encode function's, whose words are all in the image. -/
theorem stepKeepsTheInvariant : Obligations.StepKeepsTheInvariant := by
  intro s t hs hstep
  cases hc : s.calls with
  | nil =>
    rw [step_idle hc] at hstep
    cases hstep
    exact hs
  | cons c rest =>
    rw [step_eq_answer hc] at hstep
    cases hstep
    exact hs.append fun w hw => Encoder.inImage_of_encodeCall hw

/-- Settles O8: `tc` by value, its bits those of the value, and the slicers' ranges inside its interval. -/
theorem twosComplementBits : Obligations.TwosComplementBits := by
  refine ⟨fun n v hn hv => ⟨tc_toNat n v, fun k _ => tc_getLsbD v, tc_getLsbD_last hn hv⟩, ?_, ?_, ?_, by decide⟩
  · intro v x h
    obtain ⟨hv, hx⟩ := sliceI_ok_iff.1 h
    exact ⟨inTcRange_of_isImmI hv, hx⟩
  · intro v x h
    obtain ⟨hv, hx⟩ := sliceB_ok_iff.1 h
    exact ⟨inTcRange_of_isOffB hv, hx⟩
  · intro v x h
    obtain ⟨hv, hx⟩ := sliceJ_ok_iff.1 h
    exact ⟨inTcRange_of_isOffJ hv, hx⟩

/-- Settles O9: the value of a signed word by its sign bit, and the two inverses. -/
theorem signExtensionInvertsTwosComplement : Obligations.SignExtensionInvertsTwosComplement := by
  refine fun n hn => ⟨fun w => rfl, fun w => ?_, fun v hv => tc_toInt hn hv, tc_sext⟩
  rw [sext, BitVec.toInt_eq_msb_cond, BitVec.msb_eq_getLsbD_last]
  push_cast
  rfl

/-- Settles O10: both sides say that the input is the sign extension of its low bits. -/
theorem finiteInputRangeTest : Obligations.FiniteInputRangeTest := by
  refine fun w n x hn hw => ⟨Bool.eq_iff_iff.2 ?_, fun _ => tc_toInt_eq_setWidth x hw.le⟩
  exact (signCopies_iff_signExtend x hn).trans (signExtend_setWidth_eq_iff x hn hw)

/-- Settles O34: each format is the layout of the fields the decoder reads. -/
theorem encodeOfDecodeIsTheWord : Obligations.EncodeOfDecodeIsTheWord := by
  intro e w i h hm
  obtain ⟨m, hrow, rfl⟩ := decode_ok h
  rw [operandsOf_mnemonic] at hm
  exact encode_operandsOf hm hrow

/-- Settles O36: decoding the shared word gives both requests. -/
theorem distinctRequestsGetDistinctWords : Obligations.DistinctRequestsGetDistinctWords :=
  fun _ _ _ => ⟨fun _ he hi hj => Encoder.encodeRequest_injective he hi hj,
    fun _ hi hj => Encoder.encodeRequest_injective Encoder.default_conforms (result_of_exec hi) (result_of_exec hj)⟩

/-- Settles O37: an answered word is in the image, so its opcode is an encodable row's. -/
theorem answeredWordsEndInOnes : Obligations.AnsweredWordsEndInOnes := by
  refine fun c w => ⟨fun l h => inFormat_of_inImage rfl (Encoder.inImage_of_encodeCall h), fun s t hc hstep hres => ?_⟩
  rw [step_eq_answer hc] at hstep
  cases hstep
  have hw : Encoder.default.encodeCall c = .ok w := by simpa using hres
  exact inFormat_of_inImage rfl (Encoder.inImage_of_encodeCall hw)

/-- Settles O38: the sign bit, rd and the opcode stand in the same places under both layouts. -/
theorem jumpLayoutsAgreeExactly : Obligations.JumpLayoutsAgreeExactly := by
  intro i rd op
  rw [layoutJ_doc_eq_append, layoutJ_std_eq_append]
  exact (BitVec.append_left_inj op).trans ((BitVec.append_left_inj rd).trans (BitVec.append_right_inj _))

/-- Settles O40, by running the decoder. -/
theorem writtenOutWordsDecode : Obligations.WrittenOutWordsDecode := by
  unfold Obligations.WrittenOutWordsDecode
  decide

end

/-! ## The lookup's failure (40_register_table.md R81) -/

namespace Sys2Proof

/-- The failing side of `regIdx_eq_ok`: a register's name has a pattern, so it is not answered with the failure. -/
theorem regIdx_eq_unknownRegister {name : RegName} :
    regIdx name = .error .unknownRegister ↔ ∀ i : BitVec 5, name ≠ regName i := by
  constructor
  · rintro h i rfl
    rw [regIdx_regName] at h
    cases h
  · exact regIdx_of_not_name

end Sys2Proof

/-! ## The obligations of 40_register_table.md -/

section

open Sys2Proof

/-- Settles O3: the lookup's two outcomes, each exactly when. -/
theorem registerLookupIsExact : Obligations.RegisterLookupIsExact :=
  ⟨fun _ _ => regIdx_eq_ok, fun _ => regIdx_eq_unknownRegister⟩

/-- Settles O2: the 32 names are computed from their patterns, and the lookup answers a pattern on its name. -/
theorem registerTableIsComplete : Obligations.RegisterTableIsComplete := by
  intro row hrow
  have hname : regName row.2 = row.1.toList := by
    revert row
    decide
  exact ⟨regIdx_eq_ok.2 hname.symm, hname⟩

/-- Settles O4: two names with one pattern are both the name of its index, and that name has the pattern. -/
theorem registerLookupIsBijective : Obligations.RegisterLookupIsBijective :=
  ⟨fun _ _ _ ha hb => (regIdx_eq_ok.1 ha).trans (regIdx_eq_ok.1 hb).symm, fun i => ⟨regName i, regIdx_regName i⟩⟩

end

/-! ## `META` by its outcomes (41_metadata_table.md R91, R92) -/

namespace Sys2Proof

theorem Mnemonic.name_injective : Function.Injective Mnemonic.name := by
  intro m n h
  have hn := Mnemonic.ofName_name n
  rw [← h, Mnemonic.ofName_name] at hn
  exact Option.some.inj hn

/-- The family R names of R153. -/
theorem familyOf_eq_r {t : Token} :
    familyOf t = some .r ↔ t ∈ ["add".toList, "sub".toList, "and".toList, "or".toList, "xor".toList] := by
  unfold familyOf
  split_ifs with hr
  · exact iff_of_true rfl hr
  all_goals exact iff_of_false nofun hr

/-- Of the three row types, the jump's alone has no funct3. -/
theorem MetaTable.lookup_funct3_eq_none {t : MetaTable} {m : Mnemonic} : (t.lookup m).funct3 = none ↔ m = .jal := by
  cases m <;> simp [MetaTable.lookup, RSpec.view, FSpec.view, JSpec.view]

/-- Of the three row types, family R's alone has a funct7. -/
theorem MetaTable.lookup_funct7_ne_none {t : MetaTable} {m : Mnemonic} :
    (t.lookup m).funct7 ≠ none ↔ m.family = some .r := by
  cases m <;> simp [MetaTable.lookup, RSpec.view, FSpec.view, JSpec.view, Mnemonic.family]

theorem Encoder.metaOf_of_ofName_eq_none {e : Encoder} {t : Token} (h : Mnemonic.ofName t = none) :
    e.metaOf t = .error .unsupportedInstruction := by
  simp [Encoder.metaOf, h]

theorem Encoder.metaOf_eq_ok {e : Encoder} {t : Token} {spec : InstructionSpec} :
    e.metaOf t = .ok spec ↔ ∃ m : Mnemonic, t = m.name ∧ spec = e.metadataTable.lookup m := by
  constructor
  · intro h
    cases hm : Mnemonic.ofName t with
    | none =>
      rw [Encoder.metaOf_of_ofName_eq_none hm] at h
      cases h
    | some m =>
      obtain rfl := Mnemonic.name_of_ofName hm
      rw [Encoder.metaOf_name] at h
      exact ⟨m, rfl, (Except.ok.inj h).symm⟩
  · rintro ⟨m, rfl, rfl⟩
    exact e.metaOf_name m

theorem Encoder.metaOf_eq_unsupportedInstruction {e : Encoder} {t : Token} :
    e.metaOf t = .error .unsupportedInstruction ↔ ∀ m : Mnemonic, t ≠ m.name := by
  constructor
  · rintro h m rfl
    rw [Encoder.metaOf_name] at h
    cases h
  · exact fun h => Encoder.metaOf_of_ofName_eq_none (Mnemonic.ofName_eq_none.2 h)

end Sys2Proof

/-! ## The obligations of 41_metadata_table.md -/

section

open Sys2Proof

/-- Settles O6: the lookup's two outcomes, and a row's presence pattern by its mnemonic's family. -/
theorem metadataLookupIsExact : Obligations.MetadataLookupIsExact := by
  refine fun e t => ⟨fun spec => ?_, ?_, fun spec h => ?_⟩
  · simp only [Encoder.metaOf_eq_ok, Mnemonic.mem_all, true_and]
  · rw [Encoder.metaOf_eq_unsupportedInstruction]
    simp [Mnemonic.mem_all, eq_comm (a := t)]
  · obtain ⟨m, rfl, rfl⟩ := Encoder.metaOf_eq_ok.1 h
    constructor
    · exact MetaTable.lookup_funct3_eq_none.trans (Mnemonic.name_injective.eq_iff (b := .jal)).symm
    · rw [MetaTable.lookup_funct7_ne_none, ← familyOf_name, familyOf_eq_r]

/-- Settles O5: each row is that of the mnemonic its number selects, whose name has that family and those fields. -/
theorem metadataRowsAndFamilies : Obligations.MetadataRowsAndFamilies := by
  intro row hrow
  obtain ⟨m, hcode, hname, hfamily, hfields⟩ : ∃ m, Mnemonic.ofCode (BitVec.ofNat 5 row.1) = some m
      ∧ m.name = row.2.1.toList ∧ m.family = row.2.2.1
      ∧ metadataRom.lookup m = ⟨row.2.2.2.1, row.2.2.2.2.1, row.2.2.2.2.2⟩ := by
    fin_cases hrow <;> exact ⟨_, rfl, by decide⟩
  rw [hcode, ← hname, familyOf_name, Encoder.metaOf_name]
  exact ⟨rfl, hfamily, congrArg Except.ok hfields⟩

/-- Settles O7, by checking the cells and each pair of encodable rows. -/
theorem defaultTableMeetsItsConstraints : Obligations.DefaultTableMeetsItsConstraints :=
  Encoder.default_conforms

end

/-! ## Register-register requests (42_r_format.md R110 to R115) -/

namespace Sys2Proof

/-- The five family R requests on three operands, each beside its mnemonic's value of `f`: the case split of every statement
over the rows of R111 to R115. -/
theorem RMnemonic.exists_request_of_mem {α : Type} {f : RMnemonic → α} {a b c : RegName} {i : Instr} {x : α}
    (h : (i, x) ∈ [(.add a b c, f .add), (.sub a b c, f .sub), (.and a b c, f .and), (.or a b c, f .or),
      (.xor a b c, f .xor)]) :
    ∃ m : RMnemonic, i = m.request a b c ∧ x = f m := by
  have hmap : (i, x) ∈ [RMnemonic.add, .sub, .and, .or, .xor].map fun m => (m.request a b c, f m) := h
  obtain ⟨m, -, hm⟩ := List.mem_map.1 hmap
  cases hm
  exact ⟨m, rfl, rfl⟩

/-- The number of a row's word without its register fields: the constant that R111 to R115 name. -/
def RSpec.base (row : RSpec) : Nat := row.funct7.toNat * 2 ^ 25 + row.funct3.toNat * 2 ^ 12 + row.opcode.toNat

/-- The register fields stand in the word as summands beside the row's own number. -/
theorem RSpec.layoutR_toNat (row : RSpec) (rd rs1 rs2 : BitVec 5) :
    (layoutR row.funct7 rs2 rs1 row.funct3 rd row.opcode).toNat =
      row.base + rs2.toNat * 2 ^ 20 + rs1.toNat * 2 ^ 15 + rd.toNat * 2 ^ 7 := by
  rw [Sys2Proof.layoutR_toNat, RSpec.base]
  omega

namespace Machine

/-- What the encode function answers on a request is what the machine, under its own parameters, hands back, and it
changes nothing else. -/
theorem exec_of_encodeRequest {e : Encoder} {i : Instr} {r : Result} (s : State) (h : e.encodeRequest i = r) :
    e.encodeRequest i = r ∧ (e = Encoder.default → exec i s = .next { s with results := s.results ++ [r] }) := by
  refine ⟨h, ?_⟩
  rintro rfl
  rw [exec_eq_answer, h, State.answer]

end Machine

end Sys2Proof

/-! ## The obligations of 42_r_format.md -/

section

open Sys2Proof Sys2Proof.Machine

/-- Settles O11: each request is its family encoder's, which answers the layout on three names and fails on any other. -/
theorem registerRegisterWords : Obligations.RegisterRegisterWords := by
  intro e s a b c i row answers hrow
  obtain ⟨m, rfl, rfl⟩ := RMnemonic.exists_request_of_mem (f := e.metadataTable.rRow) hrow
  constructor
  · rintro rd rs1 rs2 rfl rfl rfl
    exact exec_of_encodeRequest s ((e.encodeRequest_r ..).trans (e.encR_names ..))
  · intro hbad
    exact exec_of_encodeRequest s ((e.encodeRequest_r ..).trans (e.encR_unknown m hbad))

/-- Settles O17: the word is the layout of the default table's row, and each row's own number is the rule's constant. -/
theorem registerRegisterWordsBySum : Obligations.RegisterRegisterWordsBySum := by
  intro s rd rs1 rs2 i base hbase
  obtain ⟨m, rfl, rfl⟩ := RMnemonic.exists_request_of_mem (f := fun m => (metadataRom.rRow m).base) hbase
  refine ⟨_, ?_, (metadataRom.rRow m).layoutR_toNat rd rs1 rs2⟩
  rw [exec_r, Encoder.encR_names]
  rfl

end

/-! ## Register-immediate requests (43_i_format.md R120 to R125) -/

namespace Sys2Proof

/-- The five family I requests on two registers and an immediate, each beside its mnemonic's value of `f`: the case split of
every statement over the rows of R121 to R125. -/
theorem IMnemonic.exists_request_of_mem {α : Type} {f : IMnemonic → α} {a b : RegName} {v : Int} {i : Instr} {x : α}
    (h : (i, x) ∈ [(.addi a b v, f .addi), (.andi a b v, f .andi), (.ori a b v, f .ori), (.xori a b v, f .xori),
      (.jalr a b v, f .jalr)]) :
    ∃ m : IMnemonic, i = m.request a b v ∧ x = f m := by
  have hmap : (i, x) ∈ [IMnemonic.addi, .andi, .ori, .xori, .jalr].map fun m => (m.request a b v, f m) := h
  obtain ⟨m, -, hm⟩ := List.mem_map.1 hmap
  cases hm
  exact ⟨m, rfl, rfl⟩

theorem isImmI_iff {v : Int} : isImmI v = true ↔ -2048 ≤ v ∧ v ≤ 2047 := by
  simp [isImmI]

theorem isImmI_eq_false_iff {v : Int} : isImmI v = false ↔ v < -2048 ∨ 2047 < v := by
  rw [← Bool.not_eq_true, isImmI_iff]
  omega

/-- R120 on two names and an immediate in range: the layout of the mnemonic's row. -/
theorem Encoder.encI_inRange (e : Encoder) (m : IMnemonic) (rd rs1 : BitVec 5) {v : Int} (hv : isImmI v = true) :
    e.encI m (regName rd) (regName rs1) v =
      .ok (layoutI (tc 12 v) rs1 (e.metadataTable.iRow m).funct3 rd (e.metadataTable.iRow m).opcode) := by
  rw [Encoder.encI_names, sliceI_inRange hv]
  rfl

/-- R59 through R120: two names and any other immediate. -/
theorem Encoder.encI_overflow (e : Encoder) (m : IMnemonic) (rd rs1 : BitVec 5) {v : Int} (hv : isImmI v = false) :
    e.encI m (regName rd) (regName rs1) v = .error .immediateOverflow := by
  rw [Encoder.encI_names, sliceI_overflow hv]
  rfl

/-- The number of a row's word without its register and immediate fields: the constant that R121 to R125 name. -/
def FSpec.base (row : FSpec) : Nat := row.funct3.toNat * 2 ^ 12 + row.opcode.toNat

/-- The immediate, reduced to 12 bits, and the register fields stand in the word as summands beside the row's own number. -/
theorem FSpec.layoutI_toNat (row : FSpec) (rd rs1 : BitVec 5) (v : Int) :
    ((layoutI (tc 12 v) rs1 row.funct3 rd row.opcode).toNat : Int) =
      row.base + v % 4096 * 2 ^ 20 + rs1.toNat * 2 ^ 15 + rd.toNat * 2 ^ 7 := by
  have himm : ((tc 12 v).toNat : Int) = v % 4096 := tc_toNat 12 v
  rw [Sys2Proof.layoutI_toNat, FSpec.base, ← himm]
  omega

end Sys2Proof

/-! ## The obligations of 43_i_format.md -/

section

open Sys2Proof Sys2Proof.Machine

/-- Settles O12: each request is its family encoder's, which on two names answers by the immediate's range and fails on any
other name first. -/
theorem registerImmediateWords : Obligations.RegisterImmediateWords := by
  intro e s a b v i row answers hrow
  obtain ⟨m, rfl, rfl⟩ := IMnemonic.exists_request_of_mem (f := e.metadataTable.iRow) hrow
  constructor
  · rintro rd rs1 rfl rfl
    constructor
    · intro hlo hhi
      exact exec_of_encodeRequest s ((e.encodeRequest_i ..).trans (e.encI_inRange m rd rs1 (isImmI_iff.2 ⟨hlo, hhi⟩)))
    · intro hout
      exact exec_of_encodeRequest s ((e.encodeRequest_i ..).trans (e.encI_overflow m rd rs1 (isImmI_eq_false_iff.2 hout)))
  · intro hbad
    exact exec_of_encodeRequest s ((e.encodeRequest_i ..).trans (e.encI_unknown m v hbad))

/-- Settles O18: the word is the layout of the default table's row, and each row's own number is the rule's constant. -/
theorem registerImmediateWordsBySum : Obligations.RegisterImmediateWordsBySum := by
  intro s rd rs1 v i base hlo hhi hbase
  obtain ⟨m, rfl, rfl⟩ := IMnemonic.exists_request_of_mem (f := fun m => (metadataRom.iRow m).base) hbase
  refine ⟨_, ?_, (metadataRom.iRow m).layoutI_toNat rd rs1 v⟩
  rw [exec_i, Encoder.encI_inRange _ m rd rs1 (isImmI_iff.2 ⟨hlo, hhi⟩)]
  rfl

end

/-! ## Branch requests (44_b_format.md R130 to R136) -/

namespace Sys2Proof

/-- The four family B requests on two registers and an offset, each beside its mnemonic's value of `f`: the case split of
every statement over the rows of R131 to R134. -/
theorem BMnemonic.exists_request_of_mem {α : Type} {f : BMnemonic → α} {a b : RegName} {v : Int} {i : Instr} {x : α}
    (h : (i, x) ∈ [(.beq a b v, f .beq), (.bne a b v, f .bne), (.blt a b v, f .blt), (.bge a b v, f .bge)]) :
    ∃ m : BMnemonic, i = m.request a b v ∧ x = f m := by
  have hmap : (i, x) ∈ [BMnemonic.beq, .bne, .blt, .bge].map fun m => (m.request a b v, f m) := h
  obtain ⟨m, -, hm⟩ := List.mem_map.1 hmap
  cases hm
  exact ⟨m, rfl, rfl⟩

/-- A branch request determines its operands. -/
theorem BMnemonic.request_inj {m : BMnemonic} {a a' b b' : RegName} {v v' : Int} :
    m.request a b v = m.request a' b' v' ↔ a = a' ∧ b = b' ∧ v = v' := by
  cases m <;> simp [BMnemonic.request]

/-! ### The offset's three outcomes (30_encoding.md R60, R62) -/

theorem isOffB_iff {v : Int} : isOffB v = true ↔ -4096 ≤ v ∧ v ≤ 4095 ∧ v % 2 = 0 := by
  simp [isOffB, and_assoc]

theorem sliceB_outOfRange {v : Int} (h : v < -4096 ∨ 4095 < v) : sliceB v = .error .offsetOutOfRange :=
  if_pos h

theorem sliceB_misaligned {v : Int} (hlo : -4096 ≤ v) (hhi : v ≤ 4095) (hodd : v % 2 = 1) :
    sliceB v = .error .offsetMisaligned := by
  rw [sliceB, if_neg (by omega), if_pos hodd]

/-- R130 on two names and an offset in range and even: the layout of the mnemonic's row. -/
theorem Encoder.encB_inRange (e : Encoder) (m : BMnemonic) (rs1 rs2 : BitVec 5) {v : Int} (hv : isOffB v = true) :
    e.encB m (regName rs1) (regName rs2) v =
      .ok (layoutB (tc 13 v) rs2 rs1 (e.metadataTable.bRow m).funct3 (e.metadataTable.bRow m).opcode) := by
  rw [Encoder.encB_names, sliceB_inRange hv]
  rfl

/-- R130 on two names and any other offset: the slicer's failure is the encoder's. -/
theorem Encoder.encB_of_sliceB_error (e : Encoder) (m : BMnemonic) (rs1 rs2 : BitVec 5) {v : Int} {k : Failure}
    (h : sliceB v = .error k) : e.encB m (regName rs1) (regName rs2) v = .error k := by
  rw [Encoder.encB_names, h]
  rfl

/-- The slices of the offset and the register fields stand in the word as summands beside the row's own number, the constant
that R131 to R134 name. -/
theorem FSpec.layoutB_toNat (row : FSpec) (rs1 rs2 : BitVec 5) {v : Int} {u : Nat} (hu : (u : Int) = v % 8192) :
    (layoutB (tc 13 v) rs2 rs1 row.funct3 row.opcode).toNat =
      row.base + u / 4096 * 2 ^ 31 + u / 32 % 64 * 2 ^ 25 + rs2.toNat * 2 ^ 20 + rs1.toNat * 2 ^ 15
        + u / 2 % 16 * 2 ^ 8 + u / 2048 % 2 * 2 ^ 7 := by
  have htc : (tc 13 v).toNat = u := Int.ofNat_inj.1 ((tc_toNat 13 v).trans hu.symm)
  rw [Sys2Proof.layoutB_toNat, FSpec.base, htc]
  omega

end Sys2Proof

/-! ## The obligations of 44_b_format.md -/

section

open Sys2Proof Sys2Proof.Machine

/-- Settles O13: each request is its family encoder's, which on two names answers as the offset's slicer does and fails on
any other name first. -/
theorem branchWords : Obligations.BranchWords := by
  intro e s a b v i row answers hrow
  obtain ⟨m, rfl, rfl⟩ := BMnemonic.exists_request_of_mem (f := e.metadataTable.bRow) hrow
  constructor
  · rintro rs1 rs2 rfl rfl
    have failsAsSlicer {k : Failure} (h : sliceB v = .error k) : answers (.error k) :=
      exec_of_encodeRequest s ((e.encodeRequest_b ..).trans (e.encB_of_sliceB_error m rs1 rs2 h))
    refine ⟨?_, fun hlo hhi hodd => failsAsSlicer (sliceB_misaligned hlo hhi hodd),
      fun hout => failsAsSlicer (sliceB_outOfRange hout)⟩
    rintro x rfl hlo hhi heven
    exact exec_of_encodeRequest s
      ((e.encodeRequest_b ..).trans (e.encB_inRange m rs1 rs2 (isOffB_iff.2 ⟨hlo, hhi, heven⟩)))
  · intro hbad
    exact exec_of_encodeRequest s ((e.encodeRequest_b ..).trans (e.encB_unknown m v hbad))

/-- Settles O19: the word is the layout of the default table's row, and each row's own number is the rule's constant. -/
theorem branchWordsBySum : Obligations.BranchWordsBySum := by
  intro s rs1 rs2 v u i base hlo hhi heven hu hbase
  obtain ⟨m, rfl, rfl⟩ := BMnemonic.exists_request_of_mem (f := fun m => (metadataRom.bRow m).base) hbase
  refine ⟨_, ?_, (metadataRom.bRow m).layoutB_toNat rs1 rs2 hu⟩
  rw [exec_b, Encoder.encB_inRange _ m rs1 rs2 (isOffB_iff.2 ⟨hlo, hhi, heven⟩)]
  rfl

/-- Settles O35: the operands read back from a request's word are the request's own, so encoding them again is the same
encoding. -/
theorem branchAndJumpEncodingIsIdempotent : Obligations.BranchAndJumpEncodingIsIdempotent := by
  intro e w
  constructor
  · intro m a b v h
    have hops := operandsOf_of_encode (Encoder.encodeRequest_eq_ok.1 ((e.encodeRequest_b m a b v).trans h))
    rw [BMnemonic.request_mnemonic, operandsOf, BMnemonic.request_inj] at hops
    obtain ⟨rfl, rfl, rfl⟩ := hops
    exact ⟨rfl, rfl, rfl, h⟩
  · intro a v h
    have hops : operandsOf e.jLayout w .jal = .jal a v :=
      operandsOf_of_encode ((Encoder.encodeRequest_eq_ok (i := .jal a v)).1 h)
    obtain ⟨rfl, rfl⟩ := Instr.jal.inj hops
    exact ⟨rfl, rfl, h⟩

end

/-! ## Jump requests (45_j_format.md R140 to R142) -/

namespace Sys2Proof

/-! ### The offset's three outcomes (30_encoding.md R61, R62) -/

theorem isOffJ_iff {v : Int} : isOffJ v = true ↔ -1048576 ≤ v ∧ v ≤ 1048575 ∧ v % 2 = 0 := by
  simp [isOffJ, and_assoc]

theorem sliceJ_outOfRange {v : Int} (h : v < -1048576 ∨ 1048575 < v) : sliceJ v = .error .offsetOutOfRange :=
  if_pos h

theorem sliceJ_misaligned {v : Int} (hlo : -1048576 ≤ v) (hhi : v ≤ 1048575) (hodd : v % 2 = 1) :
    sliceJ v = .error .offsetMisaligned := by
  rw [sliceJ, if_neg (by omega), if_pos hodd]

/-- R140 on a name and an offset in range and even: the encoder's layout of the jump's row. -/
theorem Encoder.encJ_inRange (e : Encoder) (rd : BitVec 5) {v : Int} (hv : isOffJ v = true) :
    e.encJ (regName rd) v = .ok (layoutJ e.jLayout (tc 21 v) rd e.metadataTable.jal.opcode) := by
  rw [Encoder.encJ_name, sliceJ_inRange hv]
  rfl

/-- R140 on a name and any other offset: the slicer's failure is the encoder's. -/
theorem Encoder.encJ_of_sliceJ_error (e : Encoder) (rd : BitVec 5) {v : Int} {k : Failure} (h : sliceJ v = .error k) :
    e.encJ (regName rd) v = .error k := by
  rw [Encoder.encJ_name, h]
  rfl

/-- A number congruent to the offset and below 2^21 is the offset's 21-bit word read unsigned. -/
theorem tc_21_toNat_eq {v : Int} {u : Nat} (hu : (u : Int) = v % 2097152) : (tc 21 v).toNat = u :=
  Int.ofNat_inj.1 ((tc_toNat 21 v).trans hu.symm)

/-- The jump's own number under the default table: its opcode, the constant of both of R142's sums. -/
theorem metadataRom_jal_opcode_toNat : metadataRom.jal.opcode.toNat = 0x6F := rfl

end Sys2Proof

/-! ## The obligations of 45_j_format.md -/

section

open Sys2Proof Sys2Proof.Machine

/-- Settles O14: the request is the jump encoder's, which on a name answers as the offset's slicer does, in the layout of
J_LAYOUT, and fails on any other name first. -/
theorem jumpWordsUnderEachLayout : Obligations.JumpWordsUnderEachLayout := by
  rintro e s a v i answers rfl
  constructor
  · rintro rd rfl
    have failsAsSlicer {k : Failure} (h : sliceJ v = .error k) : answers (.error k) :=
      exec_of_encodeRequest s (e.encJ_of_sliceJ_error rd h)
    refine ⟨?_, fun hlo hhi hodd => failsAsSlicer (sliceJ_misaligned hlo hhi hodd),
      fun hout => failsAsSlicer (sliceJ_outOfRange hout)⟩
    rintro x rfl hlo hhi heven
    exact exec_of_encodeRequest s (e.encJ_inRange rd (isOffJ_iff.2 ⟨hlo, hhi, heven⟩))
  · intro hbad
    exact exec_of_encodeRequest s (e.encJ_unknown v hbad)

/-- Settles O20: the word is the layout's of the default table's row, whose slices stand in it as summands, by the layout. -/
theorem jumpWordsBySum : Obligations.JumpWordsBySum := by
  intro s l rd v u hlo hhi heven hu
  have hoff : isOffJ v = true := isOffJ_iff.2 ⟨hlo, hhi, heven⟩
  refine ⟨layoutJ l (tc 21 v) rd metadataRom.jal.opcode, Encoder.encJ_inRange _ rd hoff, ?_, ?_⟩
  · rintro rfl
    rw [exec_jal, Encoder.encJ_inRange _ rd hoff]
    rfl
  · cases l with
    | doc =>
      rw [layoutJ_doc_toNat, tc_21_toNat_eq hu, metadataRom_jal_opcode_toNat]
      dsimp only
      omega
    | std =>
      rw [layoutJ_std_toNat, tc_21_toNat_eq hu, metadataRom_jal_opcode_toNat]
      dsimp only
      omega

end

/-! ## The operand tokens of a line (46_dispatcher.md R151 to R156) -/

namespace Sys2Proof

/-! ### Tokens: the white space between them -/

theorem isWhite_iff_mem {c : Char} :
    isWhite c = true ↔ c ∈ [' ', '\t', '\n', Char.ofNat 0x0B, Char.ofNat 0x0C, '\r'] := by
  simp only [isWhite, Bool.or_eq_true, Bool.and_eq_true, beq_iff_eq, decide_eq_true_eq, List.mem_cons, List.not_mem_nil,
    or_false, ← Char.toNat_inj, Char.reduceToNat]
  omega

theorem tokens_ne_nil {c : Char} (hc : isWhite c = false) (l : Line) : tokens (c :: l) ≠ [] := by
  cases l with
  | nil => simp [tokens_single hc]
  | cons d l =>
    cases hd : isWhite d
    · rw [tokens_before_token hc hd]
      split <;> simp
    · simp [tokens_before_white hc hd]

/-- A character before a token becomes the first one of it. -/
theorem tokens_extend {c d : Char} (hc : isWhite c = false) (hd : isWhite d = false) (l : Line) :
    ∃ t ts, tokens (d :: l) = t :: ts ∧ tokens (c :: d :: l) = (c :: t) :: ts := by
  obtain ⟨t, ts, h⟩ := List.exists_cons_of_ne_nil (tokens_ne_nil hd l)
  exact ⟨t, ts, h, by rw [tokens_before_token hc hd, h]⟩

/-- R151: a token is a run of one or more characters none of which is one of the six. -/
theorem mem_tokens {l : Line} {t : Token} (h : t ∈ tokens l) : t ≠ [] ∧ ∀ c ∈ t, isWhite c = false := by
  induction l generalizing t with
  | nil => cases h
  | cons c l ih =>
    cases hc : isWhite c with
    | true => exact ih (tokens_white hc l ▸ h)
    | false =>
      cases l with
      | nil =>
        rw [tokens_single hc, List.mem_singleton] at h
        simp [h, hc]
      | cons d l =>
        cases hd : isWhite d with
        | true =>
          rw [tokens_before_white hc hd, List.mem_cons] at h
          rcases h with rfl | h
          · simp [hc]
          · exact ih h
        | false =>
          obtain ⟨u, us, hu, heq⟩ := tokens_extend hc hd l
          rw [heq, List.mem_cons] at h
          rcases h with rfl | h
          · simpa [hc] using (ih (t := u) (by simp [hu])).2
          · exact ih (by simp [hu, h])

/-- One white-space character separates: the tokens before it, then those after it. -/
theorem tokens_append_cons {d : Char} (hd : isWhite d = true) (l l' : Line) :
    tokens (l ++ d :: l') = tokens l ++ tokens l' := by
  induction l with
  | nil => exact tokens_white hd l'
  | cons c l ih =>
    cases hc : isWhite c with
    | true => rw [List.cons_append, tokens_white hc, tokens_white hc, ih]
    | false =>
      cases l with
      | nil => rw [List.singleton_append, tokens_before_white hc hd, tokens_white hd, tokens_single hc]; rfl
      | cons c' l =>
        rw [List.cons_append] at ih
        cases hc' : isWhite c' with
        | true =>
          rw [List.cons_append, List.cons_append, tokens_before_white hc hc', tokens_before_white hc hc', ih]
          rfl
        | false =>
          obtain ⟨t, ts, h, heq⟩ := tokens_extend hc hc' l
          rw [List.cons_append, List.cons_append, tokens_before_token hc hc', ih, h, heq]
          rfl

theorem tokens_white_append {ws : Line} (hws : ∀ c ∈ ws, isWhite c = true) (l : Line) : tokens (ws ++ l) = tokens l := by
  induction ws with
  | nil => rfl
  | cons c ws ih =>
    rw [List.forall_mem_cons] at hws
    rw [List.cons_append, tokens_white hws.1, ih hws.2]

/-- A run of white space separates as one character of it does. -/
theorem tokens_append_run {ws : Line} (hws : ∀ c ∈ ws, isWhite c = true) (hne : ws ≠ []) (l l' : Line) :
    tokens (l ++ ws ++ l') = tokens l ++ tokens l' := by
  obtain ⟨d, ws, rfl⟩ := List.exists_cons_of_ne_nil hne
  rw [List.forall_mem_cons] at hws
  rw [List.append_assoc, List.cons_append, tokens_append_cons hws.1, tokens_white_append hws.2]

theorem tokens_append_white {ws : Line} (hws : ∀ c ∈ ws, isWhite c = true) (l : Line) : tokens (l ++ ws) = tokens l := by
  cases ws with
  | nil => rw [List.append_nil]
  | cons d ws => simpa [tokens] using tokens_append_run hws (by simp) l []

/-! ### Commas: stripping is dropping from the right (R154) -/

theorem stripCommas_eq_rdropWhile (t : Token) : stripCommas t = t.rdropWhile (· == ',') := rfl

@[simp] theorem stripCommas_append_replicate (t : Token) (n : Nat) :
    stripCommas (t ++ List.replicate n ',') = stripCommas t := by
  induction n with
  | zero => simp
  | succ n ih =>
    rw [List.replicate_succ', ← List.append_assoc, stripCommas_eq_rdropWhile, List.rdropWhile_concat_pos _ _ _ (by simp)]
    exact ih

theorem stripCommas_append_ne (t : Token) {c : Char} (hc : c ≠ ',') : stripCommas (t ++ [c]) = t ++ [c] :=
  List.rdropWhile_concat_neg _ _ _ (by simpa using hc)

/-- What is stripped is commas. -/
theorem eq_stripCommas_append (t : Token) : ∃ n, t = stripCommas t ++ List.replicate n ',' := by
  have hcommas : t.rtakeWhile (· == ',') = List.replicate _ ',' :=
    List.eq_replicate_of_mem fun c hc => by simpa using List.mem_rtakeWhile_imp hc
  exact ⟨_, (hcommas ▸ List.rdropWhile_append_rtakeWhile).symm⟩

theorem stripCommas_of_not_mem {t : Token} (h : ',' ∉ t) : stripCommas t = t :=
  List.rdropWhile_eq_self_iff.2 fun hne hlast => h (LawfulBEq.eq_of_beq hlast ▸ List.getLast_mem hne)

theorem stripCommas_append_comma {t : Token} (h : ',' ∉ t) : stripCommas (t ++ [',']) = t :=
  (stripCommas_append_replicate t 1).trans (stripCommas_of_not_mem h)

/-! ### Immediates: the grammar of R156 -/

theorem mem_digits_iff {c : Char} : c ∈ "0123456789".toList ↔ 48 ≤ c.toNat ∧ c.toNat ≤ 57 := by
  change c ∈ ['0', '1', '2', '3', '4', '5', '6', '7', '8', '9'] ↔ _
  simp only [List.mem_cons, List.not_mem_nil, or_false, ← Char.toNat_inj, Char.reduceToNat]
  omega

theorem parseDigits_eq_some {k n : Nat} {ds : List Char} :
    parseDigits k ds = some n ↔
      (∀ c ∈ ds, c ∈ "0123456789".toList) ∧ n = ds.foldl (fun n c => 10 * n + (c.toNat - 48)) k := by
  induction ds generalizing k with
  | nil => simp [parseDigits, eq_comm]
  | cons c ds ih =>
    rw [parseDigits, List.forall_mem_cons, List.foldl_cons, mem_digits_iff]
    split
    · next hc => rw [ih, and_iff_right hc]
    · next hc => simp [hc]

theorem parseNat_eq_some {n : Nat} {ds : List Char} :
    parseNat ds = some n ↔
      ds ≠ [] ∧ (∀ c ∈ ds, c ∈ "0123456789".toList) ∧ n = ds.foldl (fun n c => 10 * n + (c.toNat - 48)) 0 := by
  cases ds with
  | nil => simp [parseNat]
  | cons c ds => rw [parseNat, parseDigits_eq_some, and_iff_right (List.cons_ne_nil c ds)]

theorem parseNat_decimal (n : Nat) : parseNat (decimal n) = some n := by
  obtain ⟨c, cs, h⟩ := List.exists_cons_of_ne_nil (decimal_ne_nil n)
  rw [h, parseNat, ← h, parseDigits_decimal]

/-- A number has no sign, so it is read as an immediate whole. -/
theorem parseImm_of_parseNat {t : Token} {n : Nat} (h : parseNat t = some n) : parseImm t = .ok n := by
  cases t with
  | nil => cases h
  | cons c ds =>
    obtain ⟨-, hdigits, -⟩ := parseNat_eq_some.1 h
    have hc : 48 ≤ c.toNat ∧ c.toNat ≤ 57 := mem_digits_iff.1 (hdigits c List.mem_cons_self)
    have hminus : c ≠ '-' := by rintro rfl; exact absurd hc (by decide)
    have hplus : c ≠ '+' := by rintro rfl; exact absurd hc (by decide)
    simp [parseImm, hminus, hplus, h]

/-- R156: an optional sign before a number, the value negated after `-`. -/
theorem parseImm_eq_ok {t : Token} {v : Int} :
    parseImm t = .ok v ↔ ∃ (sign ds : List Char) (n : Nat), t = sign ++ ds ∧ parseNat ds = some n
      ∧ ((sign = [] ∧ v = n) ∨ (sign = ['+'] ∧ v = n) ∨ (sign = ['-'] ∧ v = -n)) := by
  constructor
  · intro h
    unfold parseImm at h
    dsimp only at h
    split at h
    · next hv =>
      cases h
      split at hv <;> obtain ⟨n, hn, rfl⟩ := Option.map_eq_some_iff.1 hv
      · exact ⟨['-'], _, n, rfl, hn, .inr (.inr ⟨rfl, rfl⟩)⟩
      · exact ⟨['+'], _, n, rfl, hn, .inr (.inl ⟨rfl, rfl⟩)⟩
      · exact ⟨[], _, n, rfl, hn, .inl ⟨rfl, rfl⟩⟩
    · cases h
  · rintro ⟨sign, ds, n, rfl, hn, ⟨rfl, rfl⟩ | ⟨rfl, rfl⟩ | ⟨rfl, rfl⟩⟩
    · exact parseImm_of_parseNat hn
    · simp [parseImm, hn]
    · simp [parseImm, hn]

/-- R156: what is no such token has its own failure. -/
theorem parseImm_ok_or (t : Token) : (∃ v, parseImm t = .ok v) ∨ parseImm t = .error .invalidImmediateSyntax := by
  unfold parseImm
  dsimp only
  split
  · exact .inl ⟨_, rfl⟩
  · exact .inr rfl

theorem parseImm_decimalInt (v : Int) : parseImm (decimalInt v) = .ok v := by
  rw [parseImm_eq_ok]
  cases v with
  | ofNat n => exact ⟨[], decimal n, n, rfl, parseNat_decimal n, .inl ⟨rfl, rfl⟩⟩
  | negSucc n => exact ⟨['-'], decimal (n + 1), n + 1, rfl, parseNat_decimal _, .inr (.inr ⟨rfl, rfl⟩)⟩

end Sys2Proof

/-! ## The canonical line of a request (46_dispatcher.md R159)

Its tokens are the mnemonic's spelling and the operands, each but the last with a comma, and reading them back gives the
request. -/

namespace Sys2Proof

/-- What the canonical line needs of an operand: it is one token, and stripping leaves it as it is. -/
structure IsOperand (t : Token) : Prop where
  ne_nil : t ≠ []
  not_white : ∀ c ∈ t, isWhite c = false
  no_comma : ',' ∉ t

/-- A digit is neither white space nor a comma. -/
theorem isWhite_of_digit {c : Char} (h : 48 ≤ c.toNat ∧ c.toNat ≤ 57) : isWhite c = false := by
  simp only [isWhite, Bool.or_eq_false_iff, beq_eq_false_iff_ne, Bool.and_eq_false_iff, decide_eq_false_iff_not]
  omega

theorem isOperand_decimal (n : Nat) : IsOperand (decimal n) where
  ne_nil := decimal_ne_nil n
  not_white c hc := isWhite_of_digit (decimal_digits n c hc)
  no_comma hc := absurd (decimal_digits n ',' hc) (by decide)

/-- An operand stays one behind a character that is no white space and no comma: a name's `x`, an integer's `-`. -/
theorem IsOperand.cons {c : Char} {t : Token} (ht : IsOperand t) (hc : isWhite c = false) (hcomma : ',' ≠ c) :
    IsOperand (c :: t) where
  ne_nil := List.cons_ne_nil c t
  not_white := List.forall_mem_cons.2 ⟨hc, ht.not_white⟩
  no_comma := List.not_mem_cons_of_ne_of_not_mem hcomma ht.no_comma

theorem isOperand_regName (i : BitVec 5) : IsOperand (regName i) :=
  (isOperand_decimal i.toNat).cons (by decide) (by decide)

theorem isOperand_decimalInt : ∀ v : Int, IsOperand (decimalInt v)
  | .ofNat n => isOperand_decimal n
  | .negSucc n => (isOperand_decimal (n + 1)).cons (by decide) (by decide)

theorem Mnemonic.name_isOperand (m : Mnemonic) : IsOperand m.name := by
  have h : ∀ m ∈ Mnemonic.all, m.name ≠ [] ∧ (m.name.all fun c => !isWhite c) = true ∧ ',' ∉ m.name := by decide
  obtain ⟨hne, hwhite, hcomma⟩ := h m m.mem_all
  exact ⟨hne, by simpa using hwhite, hcomma⟩

theorem tokens_operand_white {t : Token} (ht : IsOperand t) {d : Char} (hd : isWhite d = true) (l : Line) :
    tokens (t ++ d :: l) = t :: tokens l :=
  tokens_token_white ht.not_white ht.ne_nil hd l

/-- An operand with its comma, before the space that follows it. -/
theorem tokens_operand_comma {t : Token} (ht : IsOperand t) (l : Line) :
    tokens (t ++ ',' :: ' ' :: l) = (t ++ [',']) :: tokens l := by
  have hcomma : ∀ c ∈ t ++ [','], isWhite c = false := by
    simpa [or_imp, forall_and] using ⟨ht.not_white, by decide⟩
  simpa using tokens_token_white hcomma (by simp) (d := ' ') (by decide) l

theorem joinOperands_cons {t : Token} {ts : List Token} (h : ts ≠ []) :
    joinOperands (t :: ts) = t ++ ',' :: ' ' :: joinOperands ts := by
  obtain ⟨u, us, rfl⟩ := List.exists_cons_of_ne_nil h
  rfl

theorem tokens_joinOperands {ts : List Token} {t : Token} (hts : ∀ u ∈ ts, IsOperand u) (ht : IsOperand t) :
    tokens (joinOperands (ts ++ [t])) = ts.map (· ++ [',']) ++ [t] := by
  induction ts with
  | nil => exact tokens_token ht.not_white ht.ne_nil
  | cons u us ih =>
    rw [List.forall_mem_cons] at hts
    rw [List.cons_append, joinOperands_cons (by simp), tokens_operand_comma hts.1, ih hts.2]
    rfl

theorem canonicalLine_of_operands {i : Instr} (h : i.operands ≠ []) :
    canonicalLine i = i.mnemonic.name ++ ' ' :: joinOperands i.operands := by
  obtain ⟨t, ts, h⟩ := List.exists_cons_of_ne_nil h
  rw [canonicalLine, h]

theorem tokens_canonicalLine {i : Instr} {ts : List Token} {t : Token} (h : i.operands = ts ++ [t])
    (hts : ∀ u ∈ ts, IsOperand u) (ht : IsOperand t) :
    tokens (canonicalLine i) = i.mnemonic.name :: (ts.map (· ++ [',']) ++ [t]) := by
  rw [canonicalLine_of_operands (by simp [h]), h, tokens_operand_white i.mnemonic.name_isOperand (by decide),
    tokens_joinOperands hts ht]

theorem RMnemonic.request_operands (m : RMnemonic) (a b c : RegName) : (m.request a b c).operands = [a, b] ++ [c] := by
  cases m <;> rfl

theorem IMnemonic.request_operands (m : IMnemonic) (a b : RegName) (v : Int) :
    (m.request a b v).operands = [a, b] ++ [decimalInt v] := by
  cases m <;> rfl

theorem BMnemonic.request_operands (m : BMnemonic) (a b : RegName) (v : Int) :
    (m.request a b v).operands = [a, b] ++ [decimalInt v] := by
  cases m <;> rfl

theorem stripCommas_regName (i : BitVec 5) : stripCommas (regName i) = regName i :=
  stripCommas_of_not_mem (isOperand_regName i).no_comma

theorem stripCommas_regName_comma (i : BitVec 5) : stripCommas (regName i ++ [',']) = regName i :=
  stripCommas_append_comma (isOperand_regName i).no_comma

theorem parseLine_canonicalLine {i : Instr} (h : i.wellFormed = true) : parseLine (canonicalLine i) = .ok i := by
  rcases i.cases_family with ⟨m, a, b, c, rfl⟩ | ⟨m, a, b, v, rfl⟩ | ⟨m, a, b, v, rfl⟩ | ⟨a, v, rfl⟩ | ⟨m, rfl⟩
  · simp only [RMnemonic.request_wellFormed, Bool.and_eq_true, isRegName_iff] at h
    obtain ⟨⟨⟨rd, rfl⟩, rs1, rfl⟩, rs2, rfl⟩ := h
    have htokens := tokens_canonicalLine (m.request_operands (regName rd) (regName rs1) (regName rs2))
      (by simp [isOperand_regName]) (isOperand_regName rs2)
    rw [RMnemonic.request_mnemonic] at htokens
    rw [parseLine_r htokens, stripCommas_regName_comma, stripCommas_regName_comma, stripCommas_regName]
  · simp only [IMnemonic.request_wellFormed, Bool.and_eq_true, isRegName_iff] at h
    obtain ⟨⟨⟨rd, rfl⟩, rs1, rfl⟩, -⟩ := h
    have htokens := tokens_canonicalLine (m.request_operands (regName rd) (regName rs1) v)
      (by simp [isOperand_regName]) (isOperand_decimalInt v)
    rw [IMnemonic.request_mnemonic] at htokens
    rw [parseLine_i htokens, parseImm_decimalInt, stripCommas_regName_comma, stripCommas_regName_comma]
    rfl
  · simp only [BMnemonic.request_wellFormed, Bool.and_eq_true, isRegName_iff] at h
    obtain ⟨⟨⟨rs1, rfl⟩, rs2, rfl⟩, -⟩ := h
    have htokens := tokens_canonicalLine (m.request_operands (regName rs1) (regName rs2) v)
      (by simp [isOperand_regName]) (isOperand_decimalInt v)
    rw [BMnemonic.request_mnemonic] at htokens
    rw [parseLine_b htokens, parseImm_decimalInt, stripCommas_regName_comma, stripCommas_regName_comma]
    rfl
  · simp only [Instr.wellFormed, Bool.and_eq_true, isRegName_iff] at h
    obtain ⟨⟨rd, rfl⟩, -⟩ := h
    have htokens := tokens_canonicalLine (i := .jal (regName rd) v) (ts := [regName rd]) rfl
      (by simp [isOperand_regName]) (isOperand_decimalInt v)
    rw [parseLine_jal htokens, parseImm_decimalInt, stripCommas_regName_comma]
    rfl
  · rw [UMnemonic.request_wellFormed] at h
    cases h

/-- R159: the encode function on a canonical line answers the word of the shift form. -/
theorem Encoder.encodeCall_canonicalLine (e : Encoder) {i : Instr} (h : i.wellFormed = true) :
    e.encodeCall (.line (canonicalLine i)) = .ok (shiftWord e i) := by
  rw [e.encodeCall_line_ok (parseLine_canonicalLine h), Encoder.encodeRequest_eq_ok, encode_eq_some]
  exact ⟨h, rfl⟩

end Sys2Proof

/-! ## Calls by their form (46_dispatcher.md R155, R157, R168)

What reads as a request gets its family encoder's result, which is none of the failures of the reading itself. -/

namespace Sys2Proof

/-! ### The failures no format encoder gives -/

/-- The failures by which the dispatcher stops before it calls an encoder (R155, R156, R153). -/
def readingFailures : List Failure := [.operandArityMismatch, .invalidImmediateSyntax, .unsupportedInstruction]

/-- `r` is none of the dispatcher's own failures. -/
def NoReadingFailure {α : Type} (r : Except Failure α) : Prop := ∀ k ∈ readingFailures, r ≠ .error k

theorem NoReadingFailure.ok {α : Type} (x : α) : NoReadingFailure (.ok x : Except Failure α) := by
  intro k _ h
  cases h

theorem NoReadingFailure.error {α : Type} {k : Failure} (hk : k ∉ readingFailures) :
    NoReadingFailure (.error k : Except Failure α) := by
  rintro k' hk' h
  cases h
  exact hk hk'

theorem NoReadingFailure.bind {α β : Type} {x : Except Failure α} {f : α → Except Failure β} (hx : NoReadingFailure x)
    (hf : ∀ a, NoReadingFailure (f a)) : NoReadingFailure (x >>= f) := by
  cases x with
  | error k => exact fun k' hk' h => hx k' hk' (congrArg Except.error (Except.error.inj h))
  | ok a => exact hf a

theorem noReadingFailure_regIdx (name : RegName) : NoReadingFailure (regIdx name) := by
  unfold regIdx
  split
  · exact .ok _
  · exact .error (by decide)

theorem noReadingFailure_sliceI (v : Int) : NoReadingFailure (sliceI v) := by
  unfold sliceI
  split
  · exact .error (by decide)
  · exact .ok _

theorem noReadingFailure_sliceB (v : Int) : NoReadingFailure (sliceB v) := by
  unfold sliceB
  split
  · exact .error (by decide)
  · split
    · exact .error (by decide)
    · exact .ok _

theorem noReadingFailure_sliceJ (v : Int) : NoReadingFailure (sliceJ v) := by
  unfold sliceJ
  split
  · exact .error (by decide)
  · split
    · exact .error (by decide)
    · exact .ok _

/-- R168's encoder of a typed request: its family's, on its operands. -/
def Encoder.encodeTyped (e : Encoder) : Machine.Request → Result
  | .r m a b c => e.encR m a b c
  | .i m a b v => e.encI m a b v
  | .b m a b v => e.encB m a b v
  | .j a v => e.encJ a v

theorem Encoder.encodeRequest_instr (e : Encoder) (q : Machine.Request) :
    e.encodeRequest q.instr = e.encodeTyped q := by
  cases q with
  | r m a b c => exact e.encodeRequest_r m a b c
  | i m a b v => exact e.encodeRequest_i m a b v
  | b m a b v => exact e.encodeRequest_b m a b v
  | j a v => rfl

theorem Encoder.noReadingFailure_encodeTyped (e : Encoder) (q : Machine.Request) :
    NoReadingFailure (e.encodeTyped q) := by
  cases q with
  | r m a b c =>
    exact (noReadingFailure_regIdx a).bind fun _ => (noReadingFailure_regIdx b).bind fun _ =>
      (noReadingFailure_regIdx c).bind fun _ => .ok _
  | i m a b v =>
    exact (noReadingFailure_regIdx a).bind fun _ => (noReadingFailure_regIdx b).bind fun _ =>
      (noReadingFailure_sliceI v).bind fun _ => .ok _
  | b m a b v =>
    exact (noReadingFailure_regIdx a).bind fun _ => (noReadingFailure_regIdx b).bind fun _ =>
      (noReadingFailure_sliceB v).bind fun _ => .ok _
  | j a v => exact (noReadingFailure_regIdx a).bind fun _ => (noReadingFailure_sliceJ v).bind fun _ => .ok _

theorem Encoder.noReadingFailure_encodeRequest (e : Encoder) (q : Machine.Request) :
    NoReadingFailure (e.encodeRequest q.instr) :=
  e.encodeRequest_instr q ▸ e.noReadingFailure_encodeTyped q

/-! ### Lines -/

theorem parseLine_congr {l l' : Line} (h : tokens l = tokens l') : parseLine l = parseLine l' := by
  rw [parseLine, h, parseLine]

theorem exists_mnemonic_of_familyOf {t : Token} {f : Family} (h : familyOf t = some f) :
    ∃ m : Mnemonic, t = m.name ∧ m.family = some f := by
  cases hm : Mnemonic.ofName t with
  | none => simp [familyOf_eq_none_of_ofName hm] at h
  | some m =>
    obtain rfl := Mnemonic.name_of_ofName hm
    exact ⟨m, rfl, familyOf_name m ▸ h⟩

/-- An immediate token that is read gives the line's request, any other the line's failure. -/
theorem request_or_invalidImmediate (t : Token) (request : Int → Machine.Request) :
    (∃ q : Machine.Request, ((parseImm t).map fun v => (request v).instr) = .ok q.instr)
      ∨ ((parseImm t).map fun v => (request v).instr) = .error .invalidImmediateSyntax := by
  rcases parseImm_ok_or t with ⟨v, h⟩ | h
  · exact .inl ⟨request v, by rw [h]; rfl⟩
  · exact .inr (by rw [h]; rfl)

/-- A line with as many operand tokens as its family needs: a typed request, or a bad immediate. -/
theorem parseLine_of_family {line : Line} {ops : List Token} {m : Mnemonic} {f : Family}
    (h : tokens line = m.name :: ops) (hf : m.family = some f) (hn : ops.length = f.need) :
    (∃ q : Machine.Request, parseLine line = .ok q.instr) ∨ parseLine line = .error .invalidImmediateSyntax := by
  cases m with
  | unrouted m => cases hf
  | r m =>
    cases hf
    obtain ⟨a, b, c, rfl⟩ := List.length_eq_three.1 hn
    exact .inl ⟨.r m _ _ _, parseLine_r h⟩
  | i m =>
    cases hf
    obtain ⟨a, b, t, rfl⟩ := List.length_eq_three.1 hn
    rw [parseLine_i h]
    exact request_or_invalidImmediate t (.i m _ _)
  | b m =>
    cases hf
    obtain ⟨a, b, t, rfl⟩ := List.length_eq_three.1 hn
    rw [parseLine_b h]
    exact request_or_invalidImmediate t (.b m _ _)
  | jal =>
    cases hf
    obtain ⟨a, t, rfl⟩ := List.length_eq_two.1 hn
    rw [parseLine_jal h]
    exact request_or_invalidImmediate t (.j _)

/-- R155, both ways: no other check of the dispatcher answers the arity's failure. -/
theorem Encoder.encodeCall_line_eq_arity_iff (e : Encoder) {line : Line} {ops : List Token} {m : Mnemonic} {f : Family}
    (h : tokens line = m.name :: ops) (hf : m.family = some f) :
    e.encodeCall (.line line) = .error .operandArityMismatch ↔ ops.length ≠ f.need := by
  refine ⟨fun harity hn => ?_, fun hn => e.encodeCall_line_error (parseLine_arity h hf hn)⟩
  rcases parseLine_of_family h hf hn with ⟨q, hq⟩ | hbad
  · rw [e.encodeCall_line_ok hq] at harity
    exact e.noReadingFailure_encodeRequest q _ (by decide) harity
  · rw [e.encodeCall_line_error hbad] at harity
    cases harity

/-! ### Port codes -/

/-- D19: the fifteen encodable mnemonics have the codes 0 to 14. -/
theorem Mnemonic.family_ofCode_eq_none (code : BitVec 5) :
    (Mnemonic.ofCode code).bind Mnemonic.family = none ↔ 15 ≤ code.toNat := by
  have h : ∀ i : Fin 32, (Mnemonic.ofCode (BitVec.ofFin i)).bind Mnemonic.family = none ↔ 15 ≤ i.val := by decide
  exact h code.toFin

/-- R168: a code of a family's mnemonic makes a typed request, whose encoder has other failures; any other code is refused. -/
theorem Encoder.encodeCall_port_eq_unsupported_iff (e : Encoder) (code : BitVec 5) (r0 r1 r2 : RegName) (v : Int) :
    e.encodeCall (.port code r0 r1 r2 v) = .error .unsupportedInstruction ↔ 15 ≤ code.toNat := by
  rw [← Mnemonic.family_ofCode_eq_none, Encoder.encodeCall, Machine.Call.parse, parsePort]
  have notUnsupported (q : Machine.Request) : e.encodeRequest q.instr ≠ .error .unsupportedInstruction :=
    e.noReadingFailure_encodeRequest q _ (by decide)
  cases Mnemonic.ofCode code with
  | none => simp
  | some m =>
    cases m with
    | r m => exact iff_of_false (notUnsupported (.r m r0 r1 r2)) (by simp [Mnemonic.family])
    | i m => exact iff_of_false (notUnsupported (.i m r0 r1 v)) (by simp [Mnemonic.family])
    | b m => exact iff_of_false (notUnsupported (.b m r0 r1 v)) (by simp [Mnemonic.family])
    | jal => exact iff_of_false (notUnsupported (.j r0 v)) (by simp [Mnemonic.family])
    | unrouted m => simp [Mnemonic.family, Encoder.encodeRequest_unrouted]

/-! ### Typed requests -/

/-- R168, D24: a typed request names a mnemonic of a family. -/
theorem family_mnemonic_instr (q : Machine.Request) : q.instr.mnemonic.family ≠ none := by
  cases q with
  | r m a b c => simp [Machine.Request.instr, Mnemonic.family]
  | i m a b v => simp [Machine.Request.instr, Mnemonic.family]
  | b m a b v => simp [Machine.Request.instr, Mnemonic.family]
  | j a v => simp [Machine.Request.instr, Instr.mnemonic, Mnemonic.family]

theorem instr_ne_unrouted (q : Machine.Request) (m : UMnemonic) : q.instr ≠ m.request := by
  intro h
  refine family_mnemonic_instr q ?_
  rw [h, UMnemonic.request_mnemonic, Mnemonic.family]

namespace Machine

/-! ### Steps -/

/-- R157: a call that reads as a request runs its meaning. -/
theorem step_of_parse_ok {s : State} {c : Call} {rest : List Call} {i : Instr} (hs : s.calls = c :: rest)
    (h : c.parse = .ok i) : step s = exec i { s with calls := rest } := by
  rw [step_call hs, runCall, h]

/-- R211: a call that reads as none gets the reading's failure. -/
theorem step_of_parse_error {s : State} {c : Call} {rest : List Call} {k : Failure} (hs : s.calls = c :: rest)
    (h : c.parse = .error k) :
    step s = .next { s with calls := rest, results := s.results ++ [.error k] } := by
  rw [step_call hs, runCall, h]
  rfl

theorem step_eq_iff_encodeCall {s : State} {c : Call} {rest : List Call} {r : Result} (hs : s.calls = c :: rest) :
    step s = .next { s with calls := rest, results := s.results ++ [r] } ↔ Encoder.default.encodeCall c = r := by
  refine ⟨fun h => (result_of_step hs h).symm, ?_⟩
  rintro rfl
  exact step_eq_answer hs

/-- R157: a line that reads as a request whose encoder is known: the encode function's result, the step's meaning and the
result it adds. -/
theorem line_runs_request (e : Encoder) {s : State} {line : Line} {rest : List Call} {i : Instr}
    {encoder : Encoder → Result} (hs : s.calls = .line line :: rest) (hparse : parseLine line = .ok i)
    (hencoder : ∀ e : Encoder, e.encodeRequest i = encoder e) :
    e.encodeCall (.line line) = encoder e
      ∧ step s = exec i { s with calls := rest }
      ∧ step s = .next { s with calls := rest, results := s.results ++ [encoder Encoder.default] } := by
  have hcall (e : Encoder) : e.encodeCall (.line line) = encoder e := (e.encodeCall_line_ok hparse).trans (hencoder e)
  exact ⟨hcall e, step_of_parse_ok hs hparse, (step_eq_iff_encodeCall hs).2 (hcall _)⟩

end Machine

end Sys2Proof

/-! ## The obligations of 46_dispatcher.md -/

section

open Sys2Proof Sys2Proof.Machine

/-- Settles O32: the front end reads a canonical line back as its request, and the two encoders agree on it. -/
theorem canonicalLinesAreAccepted : Obligations.CanonicalLinesAreAccepted := by
  intro i hi
  have hencode (e : Encoder) : encode e i = some (shiftWord e i) := encode_eq_some.2 ⟨hi, rfl⟩
  refine ⟨fun e => ⟨shiftWord e i, hencode e, e.encodeCall_canonicalLine hi⟩, fun s rest hs => ?_⟩
  exact ⟨shiftWord Encoder.default i, hencode _, (step_eq_iff_encodeCall hs).2 (Encoder.encodeCall_canonicalLine _ hi)⟩

/-- Settles O15: each of the four rows is an unrouted mnemonic's, whose meaning is the refusal. -/
theorem unroutedMnemonicsAreRefused : Obligations.UnroutedMnemonicsAreRefused := by
  rintro ⟨i, name, opcode, funct3⟩ hrow
  obtain ⟨m, rfl, hname, hspec⟩ : ∃ m : UMnemonic, i = m.request ∧ name.toList = (Mnemonic.unrouted m).name
      ∧ metadataRom.lookup (.unrouted m) = ⟨opcode, some funct3, none⟩ := by
    simp only [List.mem_cons, List.not_mem_nil, or_false, Prod.mk.injEq] at hrow
    rcases hrow with ⟨rfl, rfl, rfl, rfl⟩ | ⟨rfl, rfl, rfl, rfl⟩ | ⟨rfl, rfl, rfl, rfl⟩ | ⟨rfl, rfl, rfl, rfl⟩
    · exact ⟨.lw, rfl, rfl, rfl⟩
    · exact ⟨.sw, rfl, rfl, rfl⟩
    · exact ⟨.lb, rfl, rfl, rfl⟩
    · exact ⟨.sb, rfl, rfl, rfl⟩
  simp only [hname]
  have hcall (e : Encoder) (line : Line) (ops : List Token) (h : tokens line = (Mnemonic.unrouted m).name :: ops) :
      e.encodeCall (.line line) = .error .unsupportedInstruction :=
    (e.encodeCall_line_ok (parseLine_unrouted h)).trans (e.encodeRequest_unrouted m)
  refine ⟨exec_unrouted m, fun s line ops rest h hs => ?_, hcall, fun q => instr_ne_unrouted q m, ?_⟩
  · exact (step_eq_iff_encodeCall hs).2 (hcall _ line ops h)
  · exact (Encoder.metaOf_name _ _).trans (congrArg Except.ok hspec)

/-- Settles O23: the front end and R158's function agree on every line, and the step adds the front end's result. -/
theorem lineStepIsTheNormativeDispatcher : Obligations.LineStepIsTheNormativeDispatcher :=
  fun e line => ⟨e.encodeCall_line line,
    fun _ _ hs => (step_eq_iff_encodeCall hs).2 (Encoder.encodeCall_line _ line)⟩

/-- Settles O25: a line with the right number of operands is a request or has a bad immediate. -/
theorem arityExactlyByTokenCount : Obligations.ArityExactlyByTokenCount := by
  intro line t ops f htokens hfamily
  obtain ⟨m, rfl, hf⟩ := exists_mnemonic_of_familyOf hfamily
  exact ⟨fun e => e.encodeCall_line_eq_arity_iff htokens hf,
    fun s rest hs => (step_eq_iff_encodeCall hs).trans (Encoder.encodeCall_line_eq_arity_iff _ htokens hf)⟩

/-- Settles O27: the front end's request by family, and the encoder that is called on it. -/
theorem fittingLineRunsItsRequest : Obligations.FittingLineRunsItsRequest := by
  intro e s line rest a b c x v hs
  refine ⟨fun m h => ?_, fun m h hv => ?_, fun m h hv => ?_, fun h hv => ?_⟩
  · exact line_runs_request e hs (parseLine_r h) fun e => e.encodeRequest_r ..
  · exact line_runs_request e hs ((parseLine_i h).trans (congrArg (Except.map _) hv)) fun e => e.encodeRequest_i ..
  · exact line_runs_request e hs ((parseLine_b h).trans (congrArg (Except.map _) hv)) fun e => e.encodeRequest_b ..
  · exact line_runs_request e hs ((parseLine_jal h).trans (congrArg (Except.map _) hv)) fun _ => rfl

/-- Settles O28: the sign's three forms, before digits that spell the number. -/
theorem immediateTokenGrammar : Obligations.ImmediateTokenGrammar := by
  intro t
  constructor
  · intro v
    simp only [parseImm_eq_ok, parseNat_eq_some, and_assoc]
  · intro hnone
    exact (parseImm_ok_or t).resolve_left fun ⟨v, hv⟩ => hnone v hv

/-- Settles O29: R152's set by number, and the laws of `tokens` by induction on the line. -/
theorem tokensAreMaximalRuns : Obligations.TokensAreMaximalRuns :=
  ⟨fun _ => isWhite_iff_mem, fun _ _ => mem_tokens,
    fun _ l hws => ⟨tokens_white_append hws l, tokens_append_white hws l⟩,
    fun _ l l' hws hne => tokens_append_run hws hne l l', fun _ hne ht => tokens_token ht hne⟩

/-- Settles O30: the tokens are the same, so the lines read alike. -/
theorem whiteSpaceRunsAreInterchangeable : Obligations.WhiteSpaceRunsAreInterchangeable := by
  intro l l' ws ws' hws hne hws' hne'
  have htokens : tokens (l ++ ws ++ l') = tokens (l ++ ws' ++ l') :=
    (tokens_append_run hws hne l l').trans (tokens_append_run hws' hne' l l').symm
  have hcall (e : Encoder) : e.encodeCall (.line (l ++ ws ++ l')) = e.encodeCall (.line (l ++ ws' ++ l')) := by
    rw [Encoder.encodeCall_eq_bind, Encoder.encodeCall_eq_bind, Call.parse, Call.parse, parseLine_congr htokens]
  refine ⟨hcall, ?_⟩
  rintro s s' rest t hs rfl
  rw [step_eq_answer hs, step_eq_answer rfl, hcall]

/-- Settles O31: stripping drops the commas at the end. -/
theorem trailingCommasAreStripped : Obligations.TrailingCommasAreStripped :=
  ⟨eq_stripCommas_append, stripCommas_append_replicate, fun t _ hc => stripCommas_append_ne t hc,
    stripCommas_append_replicate []⟩

/-- Settles O43: the result is the encode function's on the call, which no state enters. -/
theorem everyCallIsAnsweredOnce : Obligations.EveryCallIsAnsweredOnce :=
  fun c => ⟨Encoder.default.encodeCall c, fun _ _ hs => step_eq_answer hs⟩

/-- Settles O50: the codes of no family's mnemonic get the failure, each of the fifteen others reads as its request. -/
theorem portCodesSelectTheMnemonic : Obligations.PortCodesSelectTheMnemonic := by
  refine ⟨by decide, fun s code r0 r1 r2 v rest hs => ⟨fun hcode => ?_, fun i hi => ?_⟩⟩
  · exact (step_eq_iff_encodeCall hs).2 ((Encoder.encodeCall_port_eq_unsupported_iff ..).2 hcode)
  · refine step_of_parse_ok hs ?_
    simp only [List.mem_cons, List.not_mem_nil, or_false, Prod.mk.injEq] at hi
    rcases hi with ⟨rfl, rfl⟩ | ⟨rfl, rfl⟩ | ⟨rfl, rfl⟩ | ⟨rfl, rfl⟩ | ⟨rfl, rfl⟩ | ⟨rfl, rfl⟩ | ⟨rfl, rfl⟩ | ⟨rfl, rfl⟩ |
      ⟨rfl, rfl⟩ | ⟨rfl, rfl⟩ | ⟨rfl, rfl⟩ | ⟨rfl, rfl⟩ | ⟨rfl, rfl⟩ | ⟨rfl, rfl⟩ | ⟨rfl, rfl⟩ <;> rfl

/-- Settles O52: a typed request's encoder fails only by its registers' and immediate's own failures. -/
theorem typedRequestsCallTheirFamilysEncoder : Obligations.TypedRequestsCallTheirFamilysEncoder := by
  refine ⟨fun e q => ⟨?_, fun k hk => ⟨e.noReadingFailure_encodeRequest q k hk, fun s rest hs hstep => ?_⟩⟩,
    Encoder.encodeCall_port_eq_unsupported_iff⟩
  · exact (e.encodeRequest_instr q).trans (by cases q <;> rfl)
  · exact Encoder.default.noReadingFailure_encodeRequest q k hk ((step_eq_iff_encodeCall hs).1 hstep)

/-- Settles O22: the step by the reading of its call. -/
theorem stepRunsTheDecodedCall : Obligations.StepRunsTheDecodedCall :=
  fun _ => ⟨fun _ _ _ => step_of_parse_ok, fun _ _ _ => step_of_parse_error, fun _ => rfl, step_idle⟩

end

/-! ## Failures and their causes (60_exceptions.md R200 to R209) -/

namespace Sys2Proof

/-! ### Causes on a request -/

/-- `regName_or_not` for the two registers with which the operands of every format but the jump's begin. -/
theorem regNames_or_not (a b : RegName) :
    (∃ i j, a = regName i ∧ b = regName j) ∨ (∀ i, a ≠ regName i) ∨ ∀ i, b ≠ regName i := by
  rcases regName_or_not a with ⟨i, rfl⟩ | ha
  · rcases regName_or_not b with ⟨j, rfl⟩ | hb
    · exact .inl ⟨i, j, rfl, rfl⟩
    · exact .inr (.inr hb)
  · exact .inr (.inl ha)

theorem sliceI_eq_error {v : Int} {k : Failure} :
    sliceI v = .error k ↔ k = .immediateOverflow ∧ (v < -2048 ∨ 2047 < v) := by
  rw [← isImmI_eq_false_iff]
  cases h : isImmI v
  · simp [sliceI_overflow h, eq_comm]
  · simp [sliceI_inRange h]

/-- R60, R62: the range is tested before the evenness. -/
theorem sliceB_eq_error {v : Int} {k : Failure} :
    sliceB v = .error k ↔ (k = .offsetOutOfRange ∧ (v < -4096 ∨ 4095 < v))
      ∨ (k = .offsetMisaligned ∧ -4096 ≤ v ∧ v ≤ 4095 ∧ v % 2 = 1) := by
  constructor
  · intro h
    unfold sliceB at h
    split_ifs at h with hout hodd
    · cases h
      exact .inl ⟨rfl, hout⟩
    · cases h
      exact .inr ⟨rfl, by omega, by omega, hodd⟩
  · rintro (⟨rfl, hout⟩ | ⟨rfl, hlo, hhi, hodd⟩)
    · exact sliceB_outOfRange hout
    · exact sliceB_misaligned hlo hhi hodd

/-- R61, R62: the range is tested before the evenness. -/
theorem sliceJ_eq_error {v : Int} {k : Failure} :
    sliceJ v = .error k ↔ (k = .offsetOutOfRange ∧ (v < -1048576 ∨ 1048575 < v))
      ∨ (k = .offsetMisaligned ∧ -1048576 ≤ v ∧ v ≤ 1048575 ∧ v % 2 = 1) := by
  constructor
  · intro h
    unfold sliceJ at h
    split_ifs at h with hout hodd
    · cases h
      exact .inl ⟨rfl, hout⟩
    · cases h
      exact .inr ⟨rfl, by omega, by omega, hodd⟩
  · rintro (⟨rfl, hout⟩ | ⟨rfl, hlo, hhi, hodd⟩)
    · exact sliceJ_outOfRange hout
    · exact sliceJ_misaligned hlo hhi hodd

theorem Except.map_eq_error {ε α β : Type} {x : Except ε α} {f : α → β} {k : ε} : x.map f = .error k ↔ x = .error k := by
  cases x <;> simp [Except.map]

/-- The causes of failure of a request (R201, R202, R205 to R207), register names before the immediate and its range before its
evenness (R209). -/
inductive Instr.FailsWith : Instr → Failure → Prop
  | registerR (m : RMnemonic) {a b c : RegName}
      (h : (∀ i, a ≠ regName i) ∨ (∀ i, b ≠ regName i) ∨ ∀ i, c ≠ regName i) :
      FailsWith (m.request a b c) .unknownRegister
  | registerI (m : IMnemonic) {a b : RegName} (v : Int) (h : (∀ i, a ≠ regName i) ∨ ∀ i, b ≠ regName i) :
      FailsWith (m.request a b v) .unknownRegister
  | registerB (m : BMnemonic) {a b : RegName} (v : Int) (h : (∀ i, a ≠ regName i) ∨ ∀ i, b ≠ regName i) :
      FailsWith (m.request a b v) .unknownRegister
  | registerJ {a : RegName} (v : Int) (h : ∀ i, a ≠ regName i) : FailsWith (.jal a v) .unknownRegister
  | unrouted (m : UMnemonic) : FailsWith m.request .unsupportedInstruction
  | overflow (m : IMnemonic) (rd rs1 : BitVec 5) {v : Int} (h : v < -2048 ∨ 2047 < v) :
      FailsWith (m.request (regName rd) (regName rs1) v) .immediateOverflow
  | outOfRangeB (m : BMnemonic) (rs1 rs2 : BitVec 5) {v : Int} (h : v < -4096 ∨ 4095 < v) :
      FailsWith (m.request (regName rs1) (regName rs2) v) .offsetOutOfRange
  | outOfRangeJ (rd : BitVec 5) {v : Int} (h : v < -1048576 ∨ 1048575 < v) :
      FailsWith (.jal (regName rd) v) .offsetOutOfRange
  | misalignedB (m : BMnemonic) (rs1 rs2 : BitVec 5) {v : Int} (h : -4096 ≤ v ∧ v ≤ 4095 ∧ v % 2 = 1) :
      FailsWith (m.request (regName rs1) (regName rs2) v) .offsetMisaligned
  | misalignedJ (rd : BitVec 5) {v : Int} (h : -1048576 ≤ v ∧ v ≤ 1048575 ∧ v % 2 = 1) :
      FailsWith (.jal (regName rd) v) .offsetMisaligned

section Families

variable {e : Encoder} {a b c : RegName} {v : Int} {k : Failure}

theorem failsWith_of_encR {m : RMnemonic} (h : e.encR m a b c = .error k) : (m.request a b c).FailsWith k := by
  have fails (hbad : (∀ i, a ≠ regName i) ∨ (∀ i, b ≠ regName i) ∨ ∀ i, c ≠ regName i) :
      (m.request a b c).FailsWith k := by
    cases (e.encR_unknown m hbad).symm.trans h
    exact .registerR m hbad
  rcases regNames_or_not a b with ⟨rd, rs1, rfl, rfl⟩ | ha | hb
  · rcases regName_or_not c with ⟨rs2, rfl⟩ | hc
    · cases (e.encR_names m rd rs1 rs2).symm.trans h
    · exact fails (.inr (.inr hc))
  · exact fails (.inl ha)
  · exact fails (.inr (.inl hb))

theorem failsWith_of_encI {m : IMnemonic} (h : e.encI m a b v = .error k) : (m.request a b v).FailsWith k := by
  rcases regNames_or_not a b with ⟨rd, rs1, rfl, rfl⟩ | hbad
  · rw [Encoder.encI_names, Except.map_eq_error, sliceI_eq_error] at h
    obtain ⟨rfl, hout⟩ := h
    exact .overflow m rd rs1 hout
  · cases (e.encI_unknown m v hbad).symm.trans h
    exact .registerI m v hbad

theorem failsWith_of_encB {m : BMnemonic} (h : e.encB m a b v = .error k) : (m.request a b v).FailsWith k := by
  rcases regNames_or_not a b with ⟨rs1, rs2, rfl, rfl⟩ | hbad
  · rw [Encoder.encB_names, Except.map_eq_error, sliceB_eq_error] at h
    rcases h with ⟨rfl, hout⟩ | ⟨rfl, hodd⟩
    · exact .outOfRangeB m rs1 rs2 hout
    · exact .misalignedB m rs1 rs2 hodd
  · cases (e.encB_unknown m v hbad).symm.trans h
    exact .registerB m v hbad

theorem failsWith_of_encJ (h : e.encJ a v = .error k) : (Instr.jal a v).FailsWith k := by
  rcases regName_or_not a with ⟨rd, rfl⟩ | hbad
  · rw [Encoder.encJ_name, Except.map_eq_error, sliceJ_eq_error] at h
    rcases h with ⟨rfl, hout⟩ | ⟨rfl, hodd⟩
    · exact .outOfRangeJ rd hout
    · exact .misalignedJ rd hodd
  · cases (e.encJ_unknown v hbad).symm.trans h
    exact .registerJ v hbad

/-- The failing side of `Encoder.encodeRequest_eq_ok`: neither the metadata table nor the layout enters. -/
theorem Encoder.encodeRequest_eq_error {i : Instr} : e.encodeRequest i = .error k ↔ i.FailsWith k := by
  constructor
  · intro h
    rcases i.cases_family with ⟨m, a, b, c, rfl⟩ | ⟨m, a, b, v, rfl⟩ | ⟨m, a, b, v, rfl⟩ | ⟨a, v, rfl⟩ | ⟨m, rfl⟩
    · exact failsWith_of_encR (e.encodeRequest_r m a b c ▸ h)
    · exact failsWith_of_encI (e.encodeRequest_i m a b v ▸ h)
    · exact failsWith_of_encB (e.encodeRequest_b m a b v ▸ h)
    · exact failsWith_of_encJ h
    · cases (e.encodeRequest_unrouted m).symm.trans h
      exact .unrouted m
  · intro h
    cases h with
    | registerR m h => exact (e.encodeRequest_r ..).trans (e.encR_unknown m h)
    | registerI m v h => exact (e.encodeRequest_i ..).trans (e.encI_unknown m v h)
    | registerB m v h => exact (e.encodeRequest_b ..).trans (e.encB_unknown m v h)
    | registerJ v h => exact e.encJ_unknown v h
    | unrouted m => exact e.encodeRequest_unrouted m
    | overflow m rd rs1 h =>
      exact (e.encodeRequest_i ..).trans (e.encI_overflow m rd rs1 (isImmI_eq_false_iff.2 h))
    | outOfRangeB m rs1 rs2 h =>
      exact (e.encodeRequest_b ..).trans (e.encB_of_sliceB_error m rs1 rs2 (sliceB_outOfRange h))
    | outOfRangeJ rd h => exact e.encJ_of_sliceJ_error rd (sliceJ_outOfRange h)
    | misalignedB m rs1 rs2 h =>
      exact (e.encodeRequest_b ..).trans (e.encB_of_sliceB_error m rs1 rs2 (sliceB_eq_error.2 (.inr ⟨rfl, h⟩)))
    | misalignedJ rd h => exact e.encJ_of_sliceJ_error rd (sliceJ_eq_error.2 (.inr ⟨rfl, h⟩))

end Families

theorem UMnemonic.exists_request_iff {i : Instr} :
    (∃ m : UMnemonic, i = m.request) ↔ i = .lw ∨ i = .sw ∨ i = .lb ∨ i = .sb := by
  constructor
  · rintro ⟨m, rfl⟩
    cases m <;> simp [UMnemonic.request]
  · rintro (rfl | rfl | rfl | rfl)
    exacts [⟨.lw, rfl⟩, ⟨.sw, rfl⟩, ⟨.lb, rfl⟩, ⟨.sb, rfl⟩]

/-! ### Well-formed requests (R208) -/

theorem Encoder.wellFormed_iff_exists_ok (e : Encoder) (i : Instr) :
    i.wellFormed = true ↔ ∃ w : Word, e.encodeRequest i = .ok w := by
  simp [Encoder.encodeRequest_eq_ok, encode_eq_some]

/-- A result is a word or a failure, never both, never neither. -/
theorem Encoder.wellFormed_eq_false_iff_exists_error (e : Encoder) (i : Instr) :
    i.wellFormed = false ↔ ∃ k : Failure, e.encodeRequest i = .error k := by
  rw [← Bool.not_eq_true, e.wellFormed_iff_exists_ok]
  cases e.encodeRequest i <;> simp

/-! ### Lines -/

theorem Mnemonic.family_eq_r {m : Mnemonic} : m.family = some .r ↔ ∃ n, m = .r n := by
  cases m <;> simp [Mnemonic.family]

theorem Mnemonic.family_eq_i {m : Mnemonic} : m.family = some .i ↔ ∃ n, m = .i n := by
  cases m <;> simp [Mnemonic.family]

theorem Mnemonic.family_eq_b {m : Mnemonic} : m.family = some .b ↔ ∃ n, m = .b n := by
  cases m <;> simp [Mnemonic.family]

theorem Mnemonic.family_eq_j {m : Mnemonic} : m.family = some .j ↔ m = .jal := by
  cases m <;> simp [Mnemonic.family]

/-- The fifteen names of R153, and no other string, have a family. -/
theorem familyOf_eq_none {t : Token} :
    familyOf t = none ↔
      t ∉ ["add".toList, "sub".toList, "and".toList, "or".toList, "xor".toList, "addi".toList, "andi".toList,
           "ori".toList, "xori".toList, "jalr".toList, "beq".toList, "bne".toList, "blt".toList, "bge".toList,
           "jal".toList] := by
  change _ ↔ t ∉ ["add".toList, "sub".toList, "and".toList, "or".toList, "xor".toList]
    ++ (["addi".toList, "andi".toList, "ori".toList, "xori".toList, "jalr".toList]
    ++ (["beq".toList, "bne".toList, "blt".toList, "bge".toList] ++ ["jal".toList]))
  simp only [List.mem_append, List.mem_singleton, not_or]
  unfold familyOf
  split_ifs with hr hi hb hj
  · exact iff_of_false nofun fun h => h.1 hr
  · exact iff_of_false nofun fun h => h.2.1 hi
  · exact iff_of_false nofun fun h => h.2.2.1 hb
  · exact iff_of_false nofun fun h => h.2.2.2 hj
  · exact iff_of_true rfl ⟨hr, hi, hb, hj⟩

/-- R166: a line that begins with a mnemonic of a family has another result, whatever follows. -/
theorem Encoder.encodeCall_line_ne_unsupported (e : Encoder) {line : Line} {t : Token} {ops : List Token} {f : Family}
    (h : tokens line = t :: ops) (hf : familyOf t = some f) :
    e.encodeCall (.line line) ≠ .error .unsupportedInstruction := by
  obtain ⟨m, rfl, hm⟩ := exists_mnemonic_of_familyOf hf
  by_cases hn : ops.length = f.need
  · rcases parseLine_of_family h hm hn with ⟨q, hq⟩ | hbad
    · rw [e.encodeCall_line_ok hq]
      exact e.noReadingFailure_encodeRequest q _ (by decide)
    · rw [e.encodeCall_line_error hbad]
      nofun
  · rw [e.encodeCall_line_error (parseLine_arity h hm hn)]
    nofun

/-- R202, both ways: by R158's function where it fails, by the other checks' own results elsewhere. -/
theorem Encoder.encodeCall_line_eq_unsupported_iff (e : Encoder) (line : Line) :
    e.encodeCall (.line line) = .error .unsupportedInstruction ↔
      tokens line = [] ∨ ∃ t ops, tokens line = t :: ops ∧ familyOf t = none := by
  constructor
  · intro hfails
    cases h : tokens line with
    | nil => exact .inl rfl
    | cons t ops =>
      refine .inr ⟨t, ops, rfl, ?_⟩
      cases hf : familyOf t with
      | none => rfl
      | some f => exact absurd hfails (e.encodeCall_line_ne_unsupported h hf)
  · rw [e.encodeCall_line]
    rintro (h | ⟨t, ops, h, ht⟩)
    · exact encodeLine_of_no_token e h
    · exact encodeLine_of_no_family e h ht

/-- R204 on a line whose request waits for its immediate. -/
theorem Encoder.encodeCall_line_eq_invalidImmediate_iff (e : Encoder) {line : Line} {x : Token}
    {request : Int → Machine.Request} (h : parseLine line = (parseImm x).map fun v => (request v).instr) :
    e.encodeCall (.line line) = .error .invalidImmediateSyntax ↔ ∀ v : Int, parseImm x ≠ .ok v := by
  rw [e.encodeCall_line_map h]
  rcases parseImm_ok_or x with ⟨v, hv⟩ | hv
  · rw [hv]
    exact iff_of_false (e.noReadingFailure_encodeRequest (request v) _ (by decide)) fun hnone => hnone v rfl
  · rw [hv]
    exact iff_of_true rfl nofun

/-- The families with an immediate operand, it the last token: the line's request waits for it. -/
theorem parseLine_of_immediate_family {line : Line} {t a b x : Token} {f : Family} (hf : familyOf t = some f)
    (h : f = .i ∧ tokens line = [t, a, b, x] ∨ f = .b ∧ tokens line = [t, a, b, x] ∨ f = .j ∧ tokens line = [t, a, x]) :
    ∃ request : Int → Machine.Request, parseLine line = (parseImm x).map fun v => (request v).instr := by
  obtain ⟨m, rfl, hm⟩ := exists_mnemonic_of_familyOf hf
  rcases h with ⟨rfl, h⟩ | ⟨rfl, h⟩ | ⟨rfl, h⟩
  · obtain ⟨m, rfl⟩ := Mnemonic.family_eq_i.1 hm
    exact ⟨.i m (stripCommas a) (stripCommas b), parseLine_i h⟩
  · obtain ⟨m, rfl⟩ := Mnemonic.family_eq_b.1 hm
    exact ⟨.b m (stripCommas a) (stripCommas b), parseLine_b h⟩
  · obtain rfl := Mnemonic.family_eq_j.1 hm
    exact ⟨.j (stripCommas a), parseLine_jal h⟩

/-- R204: family R has no immediate operand. -/
theorem Encoder.encodeCall_line_r_ne_invalidImmediate (e : Encoder) {line : Line} {t : Token} {ops : List Token}
    (hf : familyOf t = some .r) (h : tokens line = t :: ops) :
    e.encodeCall (.line line) ≠ .error .invalidImmediateSyntax := by
  obtain ⟨m, rfl, hm⟩ := exists_mnemonic_of_familyOf hf
  by_cases hn : ops.length = Family.need .r
  · obtain ⟨m, rfl⟩ := Mnemonic.family_eq_r.1 hm
    obtain ⟨a, b, c, rfl⟩ := List.length_eq_three.1 hn
    rw [e.encodeCall_line_ok (parseLine_r h)]
    exact e.noReadingFailure_encodeRequest (.r m _ _ _) _ (by decide)
  · rw [e.encodeCall_line_error (parseLine_arity h hm hn)]
    nofun

namespace Machine

/-- A meaning adds a result exactly when it is the encode function's. -/
theorem exec_eq_iff_encodeRequest {s : State} {i : Instr} {r : Result} :
    exec i s = .next { s with results := s.results ++ [r] } ↔ Encoder.default.encodeRequest i = r :=
  ⟨result_of_exec, fun h => (exec_of_encodeRequest s h).2 rfl⟩

/-- The pins show the last result (D2). -/
theorem State.pins_of_results {s : State} {rs : List Result} {r : Result} (h : s.results = rs ++ [r]) :
    s.pins = some (pinsOf (Config.undrivenWord s.results.length) r) := by
  rw [State.pins, h, List.getLast?_concat, Option.map_some]

end Machine

end Sys2Proof

/-! ## The obligations of 60_exceptions.md -/

section

open Sys2Proof Sys2Proof.Machine

/-- Settles O16: the causes of each kind are those of `Instr.FailsWith`, read off by kind. -/
theorem requestFailuresAndTheirCauses : Obligations.RequestFailuresAndTheirCauses := by
  intro e s i fails bad
  have cause {k : Failure} : fails k ↔ i.FailsWith k := Encoder.encodeRequest_eq_error
  refine ⟨exec_eq_answer i s, ?_, ?_, ?_, ?_, ?_, ?_, ?_⟩
  · rw [cause]
    constructor
    · intro h
      cases h with
      | registerR m h => exact .inl ⟨m, _, _, _, rfl, h⟩
      | registerI m v h => exact .inr (.inl ⟨m, _, _, v, rfl, h⟩)
      | registerB m v h => exact .inr (.inr (.inl ⟨m, _, _, v, rfl, h⟩))
      | registerJ v h => exact .inr (.inr (.inr ⟨_, v, rfl, h⟩))
    · rintro (⟨m, a, b, c, rfl, h⟩ | ⟨m, a, b, v, rfl, h⟩ | ⟨m, a, b, v, rfl, h⟩ | ⟨a, v, rfl, h⟩)
      · exact .registerR m h
      · exact .registerI m v h
      · exact .registerB m v h
      · exact .registerJ v h
  · rw [cause, ← UMnemonic.exists_request_iff]
    constructor
    · intro h
      cases h with
      | unrouted m => exact ⟨m, rfl⟩
    · rintro ⟨m, rfl⟩
      exact .unrouted m
  · rw [cause]
    nofun
  · rw [cause]
    nofun
  · rw [cause]
    constructor
    · intro h
      cases h with
      | overflow m rd rs1 h => exact ⟨m, rd, rs1, _, rfl, h⟩
    · rintro ⟨m, rd, rs1, v, rfl, h⟩
      exact .overflow m rd rs1 h
  · rw [cause]
    constructor
    · intro h
      cases h with
      | outOfRangeB m rs1 rs2 h => exact .inl ⟨m, rs1, rs2, _, rfl, h⟩
      | outOfRangeJ rd h => exact .inr ⟨rd, _, rfl, h⟩
    · rintro (⟨m, rs1, rs2, v, rfl, h⟩ | ⟨rd, v, rfl, h⟩)
      · exact .outOfRangeB m rs1 rs2 h
      · exact .outOfRangeJ rd h
  · rw [cause]
    constructor
    · intro h
      cases h with
      | misalignedB m rs1 rs2 h => exact .inl ⟨m, rs1, rs2, _, rfl, h⟩
      | misalignedJ rd h => exact .inr ⟨rd, _, rfl, h⟩
    · rintro (⟨m, rs1, rs2, v, rfl, h⟩ | ⟨rd, v, rfl, h⟩)
      · exact .misalignedB m rs1 rs2 h
      · exact .misalignedJ rd h

/-- Settles O21: the two encoders agree, and a meaning adds exactly the encode function's result. -/
theorem wordExactlyWhenWellFormed : Obligations.WordExactlyWhenWellFormed := by
  have ofEncoder (e : Encoder) (i : Instr) : (∀ w : Word, e.encodeRequest i = .ok w ↔ encode e i = some w)
      ∧ (i.wellFormed = true ↔ ∃ w : Word, e.encodeRequest i = .ok w)
      ∧ (i.wellFormed = false ↔ ∃ k : Failure, e.encodeRequest i = .error k) :=
    ⟨fun _ => Encoder.encodeRequest_eq_ok, e.wellFormed_iff_exists_ok i, e.wellFormed_eq_false_iff_exists_error i⟩
  refine ⟨ofEncoder, fun s i => ?_⟩
  simp only [exec_eq_iff_encodeRequest]
  exact ofEncoder Encoder.default i

/-- Settles O24: only a first token of no family, or none at all, has this result, and the step adds the line's result. -/
theorem unsupportedExactlyByFirstToken : Obligations.UnsupportedExactlyByFirstToken := by
  intro line cause
  have hcause (e : Encoder) : e.encodeCall (.line line) = .error .unsupportedInstruction ↔ cause := by
    simp only [e.encodeCall_line_eq_unsupported_iff, familyOf_eq_none, cause]
  exact ⟨hcause, fun s rest hs => (step_eq_iff_encodeCall hs).trans (hcause Encoder.default)⟩

/-- Settles O26: where the line's request waits for its immediate, only the immediate's own failure is this one; a family R
line waits for none. -/
theorem invalidImmediateExactlyByItsToken : Obligations.InvalidImmediateExactlyByItsToken := by
  intro e s line rest t a b x f hs hf fails stepFails
  have hstep : stepFails ↔ Encoder.default.encodeCall (.line line) = .error .invalidImmediateSyntax :=
    step_eq_iff_encodeCall hs
  rw [hstep]
  constructor
  · intro h
    obtain ⟨request, hparse⟩ := parseLine_of_immediate_family hf h
    exact ⟨e.encodeCall_line_eq_invalidImmediate_iff hparse,
      Encoder.default.encodeCall_line_eq_invalidImmediate_iff hparse⟩
  · rintro rfl ops h
    exact ⟨e.encodeCall_line_r_ne_invalidImmediate hf h, Encoder.default.encodeCall_line_r_ne_invalidImmediate hf h⟩

/-- Settles O47: every run is the encode function of its calls, so it ends in a next state. -/
theorem noRunEverStops : Obligations.NoRunEverStops :=
  fun s n => ⟨_, run_eq_encodeCalls n s⟩

/-- Settles O49: the pins of the last result, by its two forms. -/
theorem pinsShowTheResult : Obligations.PinsShowTheResult := by
  refine ⟨fun s rs => ⟨fun w h => ?_, fun k h => ⟨Config.undrivenWord s.results.length, ?_⟩⟩, rfl⟩
  · exact State.pins_of_results h
  · exact State.pins_of_results h

end

/-! ## The parameters and the failure of a call (95_test_vectors.md section 9, property d) -/

namespace Sys2Proof

/-- No parameter enters a failure: one of the reading comes before any encoder is called, and the causes of a request's
(`Instr.FailsWith`) name neither `META` nor J_LAYOUT. -/
theorem Encoder.encodeCall_eq_error_iff (e e' : Encoder) (c : Machine.Call) (k : Failure) :
    e.encodeCall c = .error k ↔ e'.encodeCall c = .error k := by
  rw [Encoder.encodeCall_eq_bind, Encoder.encodeCall_eq_bind]
  cases c.parse with
  | error reading => exact Iff.rfl
  | ok i => exact Encoder.encodeRequest_eq_error.trans Encoder.encodeRequest_eq_error.symm

end Sys2Proof

section

open Sys2Proof Sys2Proof.Machine

/-- Settles O39: two encoders fail alike whatever their parameters, and the step adds the result of the hardware's own. -/
theorem failuresDoNotDependOnLayout : Obligations.FailuresDoNotDependOnLayout :=
  fun _ k c => ⟨fun e => e.encodeCall_eq_error_iff _ c k,
    fun _ _ hs => (step_eq_iff_encodeCall hs).trans (Encoder.encodeCall_eq_error_iff _ _ c k)⟩

end
